-- ==== Sys2Proof/Word.lean ====
section
/-! DEFINITION. The word types of CORE: the 32-bit data word (spec/00_scope.md R8, R10), the 16-bit command word
(spec/30_encoding.md R60, R61) and its 6-bit index field (R64). -/

namespace Sys2Proof

/-- A word: 32 bits, unsigned, bit 0 the least significant (R8, R10). -/
abbrev Word := BitVec 32

/-- A command word (R60, R61). -/
abbrev Cmd := BitVec 16

/-- The IDX field of a command word: an unsigned element index (R64). -/
abbrev Idx := BitVec 6

end Sys2Proof
end

