-- ==== Sys2Proof/Syntax.lean ====
section
/-! DEFINITION. The commands of CORE as syntax (spec/30_encoding.md R60, R67; spec/44_host_commands.md), the transaction
that carries one, and what a command word can decode to. -/

namespace Sys2Proof

/-- The commands, one constructor per row of spec/opcode_table.json (R67). `idx` is the raw IDX field (R64), whose range
WellFormed checks (R68); `value` is the write data of the two commands that use it (R65). -/
inductive Instr where
  /-- NOP, R172. -/
  | nop
  /-- WR_H idx, value, R173. -/
  | wrH (idx : Idx) (value : Word)
  /-- WR_M idx, value, R174. -/
  | wrM (idx : Idx) (value : Word)
  /-- RD_H idx, R175. -/
  | rdH (idx : Idx)
  /-- RD_M idx, R176. -/
  | rdM (idx : Idx)
  /-- RD_K idx, R178. -/
  | rdK (idx : Idx)
  /-- START, R177. -/
  | start
  /-- RD_STATUS, R179. -/
  | rdStatus
  /-- CLR_ERR, R180. -/
  | clrErr
deriving DecidableEq, Repr

/-- HOST's half of a transaction (R60): the command word and the write data that comes with every command. -/
structure Txn where
  cmd : Cmd
  wdata : Word
deriving DecidableEq, Repr

/-- Why a command word spells no command (R201), by the names of that table. -/
inductive IllegalCause where
  /-- RESERVED_OP: cmd[15:12] is 0x9 to 0xF. -/
  | reservedOp
  /-- RESERVED_BITS: OP is not reserved and cmd[11:6] is not 0. -/
  | reservedBits
  /-- BAD_INDEX: OP is not reserved, cmd[11:6] is 0 and IDX is outside the command's range. -/
  | badIndex
deriving DecidableEq, Repr

/-- What the decoder answers for a transaction (R72): a legal command, or an illegal one with its cause. -/
inductive Decoded where
  | legal (i : Instr)
  | illegal (c : IllegalCause)
deriving DecidableEq, Repr

end Sys2Proof
end

