-- ==== Sys2Proof/WellFormed.lean ====
section
/-! DEFINITION. Which terms of Instr are commands: the legality conditions of spec/30_encoding.md R68 on the index. The
commands with no index operand (NOP, START, RD_STATUS, CLR_ERR) have none to check, and RD_K allows every 6-bit index. -/

namespace Sys2Proof

/-- R68: WR_H and RD_H require `IDX <= 7`, WR_M and RD_M require `IDX <= 15`, RD_K allows any IDX. -/
def Instr.wf : Instr → Bool
  | .nop => true
  | .wrH idx _ => decide (idx.toNat ≤ 7)
  | .wrM idx _ => decide (idx.toNat ≤ 15)
  | .rdH idx => decide (idx.toNat ≤ 7)
  | .rdM idx => decide (idx.toNat ≤ 15)
  | .rdK _ => true
  | .start => true
  | .rdStatus => true
  | .clrErr => true

end Sys2Proof
end

