-- ==== Sys2Proof/Decode.lean ====
section
/-! DEFINITION. The command word's fields (spec/30_encoding.md R61), the opcode map (R67), the decoder (R72), which is
total on every transaction and names its cause where it refuses one, and the encoder written from the same map (R74). -/

namespace Sys2Proof

/-- OP, bits 15:12 (R61). -/
def opField (c : Cmd) : BitVec 4 := c.extractLsb' 12 4

/-- RSVD, bits 11:6 (R61, R63). -/
def rsvdField (c : Cmd) : BitVec 6 := c.extractLsb' 6 6

/-- IDX, bits 5:0 (R61, R64). -/
def idxField (c : Cmd) : Idx := c.extractLsb' 0 6

/-- A legal index gives the command, any other gives cause 3 (R68, R72). -/
def ranged (last : Nat) (idx : Idx) (i : Instr) : Decoded :=
  if idx.toNat ≤ last then .legal i else .illegal .badIndex

/-- The command of an opcode and an index, where OP is not reserved and RSVD is 0 (R72). Only WR_H and WR_M keep the write
data (R65). -/
def decodeOp (op : Nat) (idx : Idx) (wdata : Word) : Decoded :=
  match op with
  | 0x0 => ranged 0 idx .nop
  | 0x1 => ranged 7 idx (.wrH idx wdata)
  | 0x2 => ranged 15 idx (.wrM idx wdata)
  | 0x3 => ranged 7 idx (.rdH idx)
  | 0x4 => ranged 15 idx (.rdM idx)
  | 0x5 => .legal (.rdK idx)
  | 0x6 => ranged 0 idx .start
  | 0x7 => ranged 0 idx .rdStatus
  | 0x8 => ranged 0 idx .clrErr
  | _ => .illegal .reservedOp

/-- The decoder of R72, its tests in that rule's order (the cause priority of R203). -/
def decode (t : Txn) : Decoded :=
  if 0x9 ≤ (opField t.cmd).toNat then .illegal .reservedOp
  else if rsvdField t.cmd ≠ 0 then .illegal .reservedBits
  else decodeOp (opField t.cmd).toNat (idxField t.cmd) t.wdata

/-- One row of the opcode map: a word is that command exactly when `cmd and mask = match` (R67). -/
structure OpcodeRow where
  mnemonic : String
  pattern : Cmd
  mask : Cmd
deriving DecidableEq, Repr

/-- The match and mask columns of R67, row by row. -/
def opcodeMap : List OpcodeRow :=
  [⟨"NOP", 0x0000, 0xFFFF⟩,
   ⟨"WR_H", 0x1000, 0xFFF8⟩,
   ⟨"WR_M", 0x2000, 0xFFF0⟩,
   ⟨"RD_H", 0x3000, 0xFFF8⟩,
   ⟨"RD_M", 0x4000, 0xFFF0⟩,
   ⟨"RD_K", 0x5000, 0xFFC0⟩,
   ⟨"START", 0x6000, 0xFFFF⟩,
   ⟨"RD_STATUS", 0x7000, 0xFFFF⟩,
   ⟨"CLR_ERR", 0x8000, 0xFFFF⟩]

/-- A word matches a row (R67). -/
def OpcodeRow.covers (r : OpcodeRow) (c : Cmd) : Bool := c &&& r.mask == r.pattern

/-- A word is legal when it decodes to a command; the write data plays no part in that (R68). -/
def legalWord (c : Cmd) : Bool :=
  match decode ⟨c, 0⟩ with
  | .legal _ => true
  | .illegal _ => false

/-- The opcode of a command (R67). -/
def Instr.op : Instr → BitVec 4
  | .nop => 0x0
  | .wrH _ _ => 0x1
  | .wrM _ _ => 0x2
  | .rdH _ => 0x3
  | .rdM _ => 0x4
  | .rdK _ => 0x5
  | .start => 0x6
  | .rdStatus => 0x7
  | .clrErr => 0x8

/-- The index field of a command: its operand, or 0 for a command that has none (R64, R74). -/
def Instr.index : Instr → Idx
  | .nop => 0
  | .wrH idx _ => idx
  | .wrM idx _ => idx
  | .rdH idx => idx
  | .rdM idx => idx
  | .rdK idx => idx
  | .start => 0
  | .rdStatus => 0
  | .clrErr => 0

/-- The write data of a command: its operand for WR_H and WR_M, 0 for every command that ignores it (R65, R74). -/
def Instr.wdata : Instr → Word
  | .nop => 0
  | .wrH _ value => value
  | .wrM _ value => value
  | .rdH _ => 0
  | .rdM _ => 0
  | .rdK _ => 0
  | .start => 0
  | .rdStatus => 0
  | .clrErr => 0

/-- A command word from its fields, RSVD = 0 (R61, R63). -/
def cmdWord (op : BitVec 4) (idx : Idx) : Cmd := op ++ (0 : BitVec 6) ++ idx

/-- The encoder: the transaction of a command, as the table of R74 spells it. -/
def encode (i : Instr) : Txn := ⟨cmdWord i.op i.index, i.wdata⟩

/-- The transaction whose bits are `w`, numbered as spec/opcode_table.json numbers them: the command word in bits 15:0 and,
for a value given more than 16 bits, the write data above it. Every bit from `nbits` up is 0. -/
def txnOfTableWord (nbits w : Nat) : Txn :=
  ⟨BitVec.ofNat 16 (w % 2 ^ nbits), BitVec.ofNat 32 (w % 2 ^ nbits / 2 ^ 16)⟩

/-- What the decoder reads from an instruction of `nbits` bits with the value `w`; none where it refuses. -/
def decodeTableWord (nbits w : Nat) : Option Instr :=
  match decode (txnOfTableWord nbits w) with
  | .legal i => some i
  | .illegal _ => none

end Sys2Proof
end

