-- ==== Sys2Proof/Config.lean ====
section
/-! DEFINITION. What is fixed for one machine and what the spec leaves open: the two agents that take steps
(spec/10_state.md R20), the free choice between them (spec/43_sequencer.md R160), and the OPEN parameters of
spec/00_scope.md R9 and spec/92_eei_decisions.md, none of which any rule of CORE reads. -/

namespace Sys2Proof

/-- The two agents that take steps (R20): HOST, the caller, and CORE, the sequencer. -/
inductive Agent where
  | host
  | core
deriving DecidableEq, Repr, Inhabited

/-- How the schedule registers are stored (R105, parameter W_STORAGE): all 64 words, or a 16-word window. -/
inductive WStorage where
  | words64
  | window16
deriving DecidableEq, Repr, Inhabited

/-- FREE VALUE (assumption log 3). Which agent moves when the state lists no choice and both agents are enabled:
R160, "any enabled step of either agent may be the next". It is applied to the state's own counter of such draws. -/
opaque Config.freeAgent : Nat → Agent

/-- FREE VALUE (assumption log 17). The same choice for instance k of a platform with several instances (R56, R212): a
function of its own for each instance, so that no two instances' orders are tied together. -/
opaque Config.freeInstanceAgent : Nat → Nat → Agent

/-- T_STEP less one: T_STEP is an OPEN integer of at least 1 (R9, D18). No rule of the model reads it (R240). -/
opaque Config.tStepLessOne : Nat

/-- T_STEP, the clock cycles per core step (R9, R240). -/
def Config.tStep : Nat := Config.tStepLessOne + 1

/-- N_INSTANCES less one: N_INSTANCES is an OPEN integer of at least 1 (R9, R56, R212). -/
opaque Config.nInstancesLessOne : Nat

/-- N_INSTANCES, the number of independent CORE instances of a platform (R9, R212). -/
def Config.nInstances : Nat := Config.nInstancesLessOne + 1

/-- W_STORAGE (R9, R105): OPEN and not observable; State keeps the 64-word form. -/
opaque Config.wStorage : WStorage

/-- CORE_BASE (R47): where a platform places CORE; no rule of CORE reads it. -/
opaque Config.coreBase : Nat

/-- DONE_IRQ_WIRING (R206): whether a platform wires the `done` pin to an interrupt controller of its own. -/
opaque Config.doneIrqWiring : Bool

end Sys2Proof
end

