-- ==== Sys2Proof/Machine/State.lean ====
section
/-! DEFINITION. The state of one CORE instance as plain data: the tuple of spec/10_state.md R33 with its written flags, and
beside it the machine's inputs and outputs at the host interface (the pending transactions, the returned words, and who
moves next). The constant ROM is configuration, not state (R20, R25). -/

namespace Sys2Proof.Machine

/-- The phase of the sequencer (spec/10_state.md R27, spec/43_sequencer.md R150). -/
inductive Phase where
  | idle
  | round
  | fold
deriving DecidableEq, Repr

/-- An element of H or of M, the registers that carry a written flag (spec/70_reset_and_hazards.md R232). -/
inductive Reg where
  | h (k : Fin 8)
  | m (j : Fin 16)
deriving DecidableEq, Repr

/-- One listed choice of what happens next: a step of an agent (R20, R160), or a cycle with the reset input `rst` = 1
(R230), which has priority over both (R207). -/
inductive Turn where
  | of (a : Agent)
  | rst
deriving DecidableEq, Repr

/-- Why the machine stops with a fault. -/
inductive Fault where
  /-- `fault UnwrittenRead(reg)`, the spec's own stop (spec/00_scope.md R13, spec/70_reset_and_hazards.md R232: "a model
  fault, `fault UnwrittenRead(reg)`, not a value"): raised by RD_H (R175), RD_M (R176) and START (R177), where the
  pseudocode of those rules raises it. SAFE: R232 says that it "errs toward unprovable". -/
  | unwrittenRead (r : Reg)
  /-- Raised by a round step in phase ROUND with rnd = 64, where R152 gives no round (i is from 0 to 63). SAFE: no run
  reaches such a state (assumption log 6). -/
  | rndOutOfRange
deriving DecidableEq, Repr

/-- Why the model gives an instruction no meaning. -/
inductive Refusal where
  /-- Raised by an arm of `exec` whose instruction has no meaning yet; no arm does so. SAFE: the model stops. -/
  | notModelled (mnemonic : String)
deriving DecidableEq, Repr

/-- The state. The sequencer's small fields stand first, so that comparing two states by rfl meets them before the register
files. -/
structure State where
  /-- Sequencer phase (R27). -/
  phase : Phase
  /-- Round counter, 0 to 64 (R26). -/
  rnd : Fin 65
  /-- STATUS.DONE (R28). -/
  done : Bool
  /-- STATUS.ERR (R28). -/
  err : Bool
  /-- STATUS.CAUSE (R28, R201). -/
  cause : BitVec 2
  /-- Hash state registers H[0..7] (R21). -/
  h : Vector Word 8
  /-- The written flag of each element of H (R33, R232). -/
  hWritten : Vector Bool 8
  /-- Message block registers M[0..15] (R22). -/
  m : Vector Word 16
  /-- The written flag of each element of M (R33, R232). -/
  mWritten : Vector Bool 16
  /-- Schedule registers W[0..63] (R23). -/
  w : Vector Word 64
  /-- Working variables V[0..7], the source's a to h (R24). -/
  v : Vector Word 8
  /-- HOST's transactions not yet accepted, the one it presents first (R60, R242). -/
  host : List Txn
  /-- The rdata values returned so far, oldest first (R66, R242). -/
  replies : List Word
  /-- The listed choices of what happens next, the next one first (R160, R230); MODEL'S OWN (assumption log 3). -/
  turns : List Turn
  /-- How many free choices of agent have been drawn; MODEL'S OWN (assumption log 3). -/
  draws : Nat
deriving DecidableEq, Repr

/-- The state after reset (R231): phase IDLE; DONE, ERR and CAUSE 0; every element of H and M unwritten. The spec leaves
the contents of H, M, W, V and rnd unspecified: they are 0 here (DESIGN CHOICE, assumption log 2). HOST has presented
nothing and nothing has been returned. -/
def State.reset : State where
  h := Vector.replicate 8 0
  hWritten := Vector.replicate 8 false
  m := Vector.replicate 16 0
  mWritten := Vector.replicate 16 false
  w := Vector.replicate 64 0
  v := Vector.replicate 8 0
  rnd := 0
  phase := .idle
  done := false
  err := false
  cause := 0
  host := []
  replies := []
  turns := []
  draws := 0

end Sys2Proof.Machine
end

