-- ==== Sys2Proof/Machine/Flags.lean ====
section
/-! DEFINITION. The STATUS register (spec/10_state.md R28), the cause codes (spec/60_exceptions.md R201), the output pins
(R206) and what each step does to the status bits. CORE has no arithmetic flags (R31). -/

namespace Sys2Proof.Machine

/-- BUSY is computed from the phase: `BUSY = (phase != IDLE)` (spec/43_sequencer.md R155). -/
def State.busy (s : State) : Bool :=
  match s.phase with
  | .idle => false
  | .round => true
  | .fold => true

/-- STATUS as RD_STATUS returns it: `{ 26'b0, CAUSE[1:0], 1'b0, ERR, DONE, BUSY }` (R28, R179). -/
def State.status (s : State) : Word :=
  (0 : BitVec 26) ++ s.cause ++ (0 : BitVec 1) ++ BitVec.ofBool s.err ++ BitVec.ofBool s.done ++ BitVec.ofBool s.busy

/-- The output pin `busy`, equal to STATUS.BUSY (R206). -/
def State.busyPin (s : State) : Bool := s.busy

/-- The output pin `done`, equal to STATUS.DONE (R206). -/
def State.donePin (s : State) : Bool := s.done

/-- The code of a cause in STATUS.CAUSE (R201). -/
def causeCode : IllegalCause → BitVec 2
  | .reservedOp => 1
  | .reservedBits => 2
  | .badIndex => 3

/-- `raise IllegalCommand(c)` on the status bits: the first cause is kept, ERR is set (R202). -/
def State.recordIllegal (c : IllegalCause) (s : State) : State :=
  { s with cause := if s.err then s.cause else causeCode c, err := true }

/-- CLR_ERR on the status bits (R180). -/
def State.clearErr (s : State) : State := { s with err := false, cause := 0 }

end Sys2Proof.Machine
end

