-- ==== Sys2Proof/Machine/Operands.lean ====
section
/-! DEFINITION. The operand form of CORE's commands: the index field as an element of H, M or K, used as is, neither
scaled, sign-extended nor offset (spec/30_encoding.md R64), with the range of each index space (spec/20_memory.md R47). -/

namespace Sys2Proof.Machine

/-- The element of H an index names, 0 to 7; none outside the range (R47, R68). -/
def hIndex (idx : Idx) : Option (Fin 8) := if h : idx.toNat < 8 then some ⟨idx.toNat, h⟩ else none

/-- The element of M an index names, 0 to 15; none outside the range (R47, R68). -/
def mIndex (idx : Idx) : Option (Fin 16) := if h : idx.toNat < 16 then some ⟨idx.toNat, h⟩ else none

/-- The element of K an index names; every 6-bit index names one (R47, R68). -/
def kIndex (idx : Idx) : Fin 64 := idx.toFin

end Sys2Proof.Machine
end

