-- ==== Sys2Proof/Machine/Operators.lean ====
section
/-! DEFINITION. The datapath operators of spec/40_operators.md (R80 to R89). Every one is a total function of its words
(R91); the rotation and shift amounts are those of R90. -/

namespace Sys2Proof.Machine

/-- R80. A rotation amount is from 1 to 31; the source leaves `n = 0` undefined, so the amount carries its bound
(spec/93_implementation_defined.md I1). -/
def rotr (x : Word) (n : Nat) (_h : 1 ≤ n ∧ n ≤ 31 := by decide) : Word := (x >>> n) ||| (x <<< (32 - n))

/-- R81: zero bits enter at the top. -/
def shr (x : Word) (n : Nat) : Word := x >>> n

/-- R82: the sum on unbounded naturals, then truncated to bits 31:0. -/
def add32 (xs : List Word) : Word := BitVec.ofNat 32 (xs.map BitVec.toNat).sum

/-- R83: the four bytes in reverse. -/
def bswap32 (x : Word) : Word :=
  x.extractLsb' 0 8 ++ x.extractLsb' 8 8 ++ x.extractLsb' 16 8 ++ x.extractLsb' 24 8

/-- R84, the source's s0. -/
def sigma0 (x : Word) : Word := rotr x 7 ^^^ rotr x 18 ^^^ shr x 3

/-- R85, the source's s1. -/
def sigma1 (x : Word) : Word := rotr x 17 ^^^ rotr x 19 ^^^ shr x 10

/-- R86, the source's Σ0. -/
def Sigma0 (x : Word) : Word := rotr x 2 ^^^ rotr x 13 ^^^ rotr x 22

/-- R87, the source's Σ1. -/
def Sigma1 (x : Word) : Word := rotr x 6 ^^^ rotr x 11 ^^^ rotr x 25

/-- R88, choose. -/
def Ch (e f g : Word) : Word := g ^^^ (e &&& (f ^^^ g))

/-- R89, majority. -/
def Maj (a b c : Word) : Word := (a &&& (b ||| c)) ||| (b &&& c)

end Sys2Proof.Machine
end

