-- ==== Sys2Proof/Machine/Expander.lean ====
section
/-! DEFINITION. The Message Schedule Expander (spec/41_schedule_expander.md): LOADW and SCHED(i) on the 64 schedule
registers, the pure function Expand of R107, and the 16-word window of R105. -/

namespace Sys2Proof.Machine

/-- LOADW as far as the words below n (R101): `W[j] <- bswap32(M[j])`. -/
def loadwUpTo (m : Vector Word 16) (w : Vector Word 64) : Nat → Vector Word 64
  | 0 => w
  | n + 1 => if h : n < 16 then (loadwUpTo m w n).set n (bswap32 m[n]) else loadwUpTo m w n

/-- LOADW (R101): `W[j] <- bswap32(M[j])` for j from 0 to 15, all in one step; the other words keep their values. -/
def loadw (m : Vector Word 16) (w : Vector Word 64) : Vector Word 64 := loadwUpTo m w 16

/-- The word SCHED(i) writes (R102), for i from 16 to 63. -/
def schedWord (i : Nat) (h : 16 ≤ i ∧ i < 64) (w : Vector Word 64) : Word :=
  add32 [w[i - 16], w[i - 7], sigma0 w[i - 15], sigma1 w[i - 2]]

/-- SCHED(i) in round step i: W[i] is written for i from 16 to 63, and nothing for i below 16 (R102, R152). -/
def scheduleAt (i : Nat) (w : Vector Word 64) : Vector Word 64 :=
  if h : 16 ≤ i ∧ i < 64 then w.set i (schedWord i h w) else w

/-- Expand (R107) after the words below n are done: LOADW, then SCHED(i) in strictly increasing i (R103). -/
def expandUpTo (m : Vector Word 16) : Nat → Vector Word 64
  | 0 => loadw m (Vector.replicate 64 0)
  | n + 1 => scheduleAt n (expandUpTo m n)

/-- Expand (R107): the schedule of a block, a function of the block alone. Irreducible, so that no unification runs it. -/
@[irreducible] def expand (m : Vector Word 16) : Vector Word 64 := expandUpTo m 64

/-- The 16-word window W'[0..15] that holds W[i-16..i-1] (R105). -/
def windowAt (i : Nat) (h : 16 ≤ i ∧ i ≤ 64) (w : Vector Word 64) : Vector Word 16 :=
  Vector.ofFn fun k => w[i - 16 + k.val]

/-- The next schedule word computed from the window alone: W[i-16], W[i-7], W[i-15] and W[i-2] are W'[0], W'[9], W'[1]
and W'[14] (R102, R105). -/
def windowWord (win : Vector Word 16) : Word := add32 [win[0], win[9], sigma0 win[1], sigma1 win[14]]

/-- The window shifted by one word, the new word at its end (R105). -/
def windowShift (win : Vector Word 16) : Vector Word 16 :=
  Vector.ofFn fun k => if h : k.val < 15 then win[k.val + 1] else windowWord win

end Sys2Proof.Machine
end

