-- ==== Sys2Proof/Machine/RoundEngine.lean ====
section
/-! DEFINITION. The Compression Round Engine (spec/42_round_engine.md): roles and their binding (R124), ROUND(i) on the
working variables (R125), FOLD (R128), the pure function Compress (R129), and the shifting form of R127. -/

namespace Sys2Proof.Machine

/-- The eight roles of a round (R124). -/
inductive Role where
  | A | B | C | D | E | F | G | H
deriving DecidableEq, Repr

/-- The number of a role: A = 0 to H = 7 (R124). -/
def Role.num : Role → Fin 8
  | .A => 0
  | .B => 1
  | .C => 2
  | .D => 3
  | .E => 4
  | .F => 5
  | .G => 6
  | .H => 7

/-- The working variable bound to role r in round i: `V[(r - i) mod 8]` (R124; spec/90_conflicts.md C3). -/
def binding (r : Role) (i : Nat) : Fin 8 := r.num - Fin.ofNat 8 i

/-- T1 of ROUND(i) (R125), from the role values and the round's constant and schedule word. -/
def roundT1 (e f g h k w : Word) : Word := add32 [h, Sigma1 e, Ch e f g, k, w]

/-- ROUND(i) (R125) with constant k and schedule word w: both writes read the values before the round. -/
def roundVars (i : Nat) (k w : Word) (v : Vector Word 8) : Vector Word 8 :=
  let role (r : Role) : Word := v[binding r i]
  let t1 := roundT1 (role .E) (role .F) (role .G) (role .H) k w
  (v.set (binding .D i).val (add32 [role .D, t1])).set (binding .H i).val
    (add32 [t1, Sigma0 (role .A), Maj (role .A) (role .B) (role .C)])

/-- FOLD (R128): `H[k] <- add32(H[k], V[k])`, all eight at once. -/
def foldWords (h v : Vector Word 8) : Vector Word 8 := Vector.ofFn fun k => add32 [h[k.val], v[k.val]]

/-- The working variables after rounds 0 to n-1 over a schedule, from their values before round 0 (R129). -/
def roundsUpTo (ws : Vector Word 64) (v : Vector Word 8) : Nat → Vector Word 8
  | 0 => v
  | n + 1 =>
    if h : n < 64 then roundVars n romK[n] ws[n] (roundsUpTo ws v n) else roundsUpTo ws v n

/-- Compress (R129): one compression as a function of the hash state and the block. Irreducible, so that no unification runs
it. -/
@[irreducible] def compress (h : Vector Word 8) (m : Vector Word 16) : Vector Word 8 := foldWords h (roundsUpTo (expand m) h 64)

/-- One round of the shifting form (R127), on eight role registers a to h:
`(a, ..., h) <- (T1 + S0 + mj, a, b, c, d + T1, e, f, g)`. -/
def shiftRound (k w : Word) (r : Vector Word 8) : Vector Word 8 :=
  let t1 := roundT1 r[4] r[5] r[6] r[7] k w
  #v[add32 [t1, Sigma0 r[0], Maj r[0] r[1] r[2]], r[0], r[1], r[2], add32 [r[3], t1], r[4], r[5], r[6]]

/-- The role registers of the shifting form after rounds 0 to n-1 (R127). -/
def shiftRoundsUpTo (ws : Vector Word 64) (r : Vector Word 8) : Nat → Vector Word 8
  | 0 => r
  | n + 1 => if h : n < 64 then shiftRound romK[n] ws[n] (shiftRoundsUpTo ws r n) else shiftRoundsUpTo ws r n

end Sys2Proof.Machine
end

