-- ==== Sys2Proof/Machine/Ops.lean ====
section
/-! DEFINITION. The operations the commands and the core steps share: reading and writing the registers HOST can address,
accepting a transaction and holding one (spec/44_host_commands.md R170, R171), raising IllegalCommand, the only exception
CORE has (spec/60_exceptions.md R202; it transfers no control, and CORE has no return from it, R204 and R205), the effect
INIT of START (spec/43_sequencer.md R151), and reset (spec/70_reset_and_hazards.md R230, R231). -/

namespace Sys2Proof.Machine

/-- The transaction HOST presents is accepted and `rdata` is returned (R60, R66, R170): HOST goes on to its next one. -/
def State.accept (rdata : Word) (s : State) : State :=
  { s with host := s.host.tail, replies := s.replies ++ [rdata] }

/-- A held command is not accepted: HOST waits with the same transaction and nothing changes (R171). -/
def State.hold (s : State) : State := s

/-- Read H[k]; none where the element is unwritten (R175, R232). -/
def State.readH (k : Fin 8) (s : State) : Option Word := if s.hWritten[k.val] then some s.h[k.val] else none

/-- Read M[j]; none where the element is unwritten (R176, R232). -/
def State.readM (j : Fin 16) (s : State) : Option Word := if s.mWritten[j.val] then some s.m[j.val] else none

/-- Write H[k], which becomes written (R173, R232). -/
def State.writeH (k : Fin 8) (value : Word) (s : State) : State :=
  { s with h := s.h.set k.val value, hWritten := s.hWritten.set k.val true }

/-- Write M[j], which becomes written; no byte swap (R174, R232). -/
def State.writeM (j : Fin 16) (value : Word) (s : State) : State :=
  { s with m := s.m.set j.val value, mWritten := s.mWritten.set j.val true }

/-- The first of the 24 inputs of START that is unwritten, H[0..7] before M[0..15], if there is one (R177, R232). The rule
does not say which one a fault names where several are unwritten (DESIGN CHOICE, assumption log 5). -/
def State.firstUnwritten (s : State) : Option Reg :=
  ((List.finRange 8).find? fun k => !s.hWritten[k.val]).map Reg.h <|>
    ((List.finRange 16).find? fun j => !s.mWritten[j.val]).map Reg.m

/-- `raise IllegalCommand(c)` in the host step that accepts the command (R181, R202): ERR and CAUSE change, rdata is 0,
nothing else changes, and HOST's next command is accepted normally. -/
def State.raiseIllegalCommand (c : IllegalCause) (s : State) : State := (s.recordIllegal c).accept 0

/-- INIT (R151): LOADW, `V[k] <- H[k]`, `rnd <- 0`, `phase <- ROUND`, `DONE <- 0`. -/
def State.init (s : State) : State :=
  { s with w := loadw s.m s.w, v := s.h, rnd := 0, phase := .round, done := false }

/-- The reset state on CORE's own registers, whatever the phase (R230, R231, R233). The transactions HOST has not had
accepted, the replies already returned and the listed choices are the outside world's and stay. -/
def State.resetCore (s : State) : State :=
  { State.reset with host := s.host, replies := s.replies, turns := s.turns, draws := s.draws }

end Sys2Proof.Machine
end

