-- ==== Sys2Proof/Machine/Commands.lean ====
section
/-! DEFINITION. The meanings of the nine commands (spec/44_host_commands.md R172 to R180), each with its acceptance: the
held commands (R171) are not accepted while BUSY = 1. A term with an index outside the command's range is no command but
the illegal word with cause 3 it encodes to (spec/30_encoding.md R64, R69), which is never held (R181). -/

namespace Sys2Proof.Machine

/-- NOP (R172): returns 0; no state changes. -/
def execNop (s : State) : Host.Outcome State Fault Refusal := .next (s.accept 0)

/-- WR_H idx, value (R173): held while BUSY; then `H[idx] <- wdata`, and rdata is 0. -/
def execWrH (idx : Idx) (value : Word) (s : State) : Host.Outcome State Fault Refusal :=
  match hIndex idx with
  | none => .next (s.raiseIllegalCommand .badIndex)
  | some k => if s.busy then .next s.hold else .next ((s.writeH k value).accept 0)

/-- WR_M idx, value (R174): held while BUSY; then `M[idx] <- wdata`, and rdata is 0. -/
def execWrM (idx : Idx) (value : Word) (s : State) : Host.Outcome State Fault Refusal :=
  match mIndex idx with
  | none => .next (s.raiseIllegalCommand .badIndex)
  | some j => if s.busy then .next s.hold else .next ((s.writeM j value).accept 0)

/-- RD_H idx (R175): held while BUSY; then R175's two lines: where H[idx] is unwritten the fault
UnwrittenRead(H[idx]) (R232: "not a value"), else rdata is H[idx]. -/
def execRdH (idx : Idx) (s : State) : Host.Outcome State Fault Refusal :=
  match hIndex idx with
  | none => .next (s.raiseIllegalCommand .badIndex)
  | some k =>
    if s.busy then .next s.hold
    else
      match s.readH k with
      | some x => .next (s.accept x)
      | none => .fault (.unwrittenRead (.h k))

/-- RD_M idx (R176): held while BUSY; then R176's two lines: where M[idx] is unwritten the fault
UnwrittenRead(M[idx]) (R232: "not a value"), else rdata is M[idx] as written, not swapped. -/
def execRdM (idx : Idx) (s : State) : Host.Outcome State Fault Refusal :=
  match mIndex idx with
  | none => .next (s.raiseIllegalCommand .badIndex)
  | some j =>
    if s.busy then .next s.hold
    else
      match s.readM j with
      | some x => .next (s.accept x)
      | none => .fault (.unwrittenRead (.m j))

/-- RD_K idx (R178): never held; K[idx], in any phase and after any reset. -/
def execRdK (idx : Idx) (s : State) : Host.Outcome State Fault Refusal := .next (s.accept romK[(kIndex idx).val])

/-- START (R177): held while BUSY; then R177's three lines: where any of the 24 inputs is unwritten the fault
UnwrittenRead (R232), else INIT, and rdata is 0. -/
def execStart (s : State) : Host.Outcome State Fault Refusal :=
  if s.busy then .next s.hold
  else
    match s.firstUnwritten with
    | some r => .fault (.unwrittenRead r)
    | none => .next (s.init.accept 0)

/-- RD_STATUS (R179): never held; STATUS, which the read does not change. -/
def execRdStatus (s : State) : Host.Outcome State Fault Refusal := .next (s.accept s.status)

/-- CLR_ERR (R180): never held; ERR and CAUSE become 0, and rdata is 0. -/
def execClrErr (s : State) : Host.Outcome State Fault Refusal := .next (s.clearErr.accept 0)

end Sys2Proof.Machine
end

