-- ==== Sys2Proof/Machine/Dispatch.lean ====
section
/-! DEFINITION. One arm per command: its meaning. -/

namespace Sys2Proof.Machine

/-- The effect of a command HOST presents, its acceptance included (spec/44_host_commands.md R170). -/
def exec (i : Instr) (s : State) : Host.Outcome State Fault Refusal :=
  match i with
  | .nop => Sys2Proof.Machine.execNop s
  | .wrH idx value => Sys2Proof.Machine.execWrH idx value s
  | .wrM idx value => Sys2Proof.Machine.execWrM idx value s
  | .rdH idx => Sys2Proof.Machine.execRdH idx s
  | .rdM idx => Sys2Proof.Machine.execRdM idx s
  | .rdK idx => Sys2Proof.Machine.execRdK idx s
  | .start => Sys2Proof.Machine.execStart s
  | .rdStatus => Sys2Proof.Machine.execRdStatus s
  | .clrErr => Sys2Proof.Machine.execClrErr s

end Sys2Proof.Machine
end

