-- ==== Sys2Proof/Machine/Sequencer.lean ====
section
/-! DEFINITION. The steps of the CORE agent (spec/43_sequencer.md R150 to R154). -/

namespace Sys2Proof.Machine

/-- ROUND_STEP (R152) for i = rnd below 64: SCHED(i) first, then ROUND(i) with the W[i] of this step, then `rnd <- i + 1`,
and FOLD after round 63. -/
def State.roundStep (s : State) (h : s.rnd.val < 64) : State :=
  let w := scheduleAt s.rnd.val s.w
  { s with
    w := w
    v := roundVars s.rnd.val romK[s.rnd.val] w[s.rnd.val] s.v
    rnd := ⟨s.rnd.val + 1, by omega⟩
    phase := if s.rnd.val = 63 then .fold else .round }

/-- FOLD_STEP (R153): H, BUSY and DONE change in one atomic step. The written flags stay (R232;
assumption log 10). -/
def State.foldStep (s : State) : State := { s with h := foldWords s.h s.v, phase := .idle, done := true }

/-- One step of CORE. Phase IDLE has none: CORE changes nothing (R154). -/
def coreStep (s : State) : Host.Outcome State Fault Refusal :=
  match s.phase with
  | .idle => .next s
  | .round => if h : s.rnd.val < 64 then .next (s.roundStep h) else .fault .rndOutOfRange
  | .fold => .next s.foldStep

/-- `n` steps of CORE in a row, stopping at a fault (R156). -/
def coreSteps : Nat → State → Host.Outcome State Fault Refusal
  | 0, s => .next s
  | n + 1, s =>
    match coreStep s with
    | .next t => coreSteps n t
    | .fault r => .fault r
    | .refused r => .refused r

end Sys2Proof.Machine
end

