-- ==== Sys2Proof/Machine/Advance.lean ====
section
/-! DEFINITION. The step of the HOST agent (spec/44_host_commands.md R170), which agents are enabled (R171,
spec/43_sequencer.md R154), and how one step of the machine comes from the agents' steps and the reset input (R160,
spec/60_exceptions.md R207). -/

namespace Sys2Proof.Machine

/-- `held(d)`: true exactly for WR_H, WR_M, RD_H, RD_M and START (R171). -/
def heldCommand : Instr → Bool
  | .nop => false
  | .wrH _ _ => true
  | .wrM _ _ => true
  | .rdH _ => true
  | .rdM _ => true
  | .rdK _ => false
  | .start => true
  | .rdStatus => false
  | .clrErr => false

/-- A transaction cannot be accepted now: it is a held command and BUSY = 1 (R170, R171). -/
def State.holds (t : Txn) (s : State) : Bool :=
  match decode t with
  | .legal i => heldCommand i && s.busy
  | .illegal _ => false

/-- HOST has an enabled step: it presents a transaction and that is not held (R171). -/
def State.hostReady (s : State) : Bool :=
  match s.host with
  | [] => false
  | t :: _ => !s.holds t

/-- HOST_STEP (R170): the presented transaction is decoded and performed. With none presented nothing happens. -/
def hostStep (s : State) : Host.Outcome State Fault Refusal :=
  match s.host with
  | [] => .next s
  | t :: _ =>
    match decode t with
    | .illegal c => .next (s.raiseIllegalCommand c)
    | .legal i => exec i s

/-- The next step where agent `a` goes first: its step if it is enabled, else the other agent's. Where neither is enabled
the state is final or waits for HOST, and nothing changes (R154, R243; assumption log 4). -/
def moveFirst (a : Agent) (s : State) : Host.Outcome State Fault Refusal :=
  match a with
  | .host => if s.hostReady then hostStep s else coreStep s
  | .core => if s.busy then coreStep s else hostStep s

/-- One step of one instance: the next listed choice, or where none is listed the agent `free` gives for this draw (R160).
A cycle with `rst` = 1 has priority over any command or core step (R207, R230). Which function `free` is, is the caller's:
Config.freeAgent for the one machine of `step` (assumption log 3), a function of each instance's own on a platform
(assumption log 17). -/
def advance (free : Nat → Agent) (s : State) : Host.Outcome State Fault Refusal :=
  match s.turns with
  | .rst :: ts => .next { s with turns := ts }.resetCore
  | .of a :: ts => moveFirst a { s with turns := ts }
  | [] => moveFirst (free s.draws) { s with draws := s.draws + 1 }

/-- A transaction presented before HOST's others, with HOST to go first (assumption log 8). -/
def State.present (t : Txn) (s : State) : State := { s with host := t :: s.host, turns := .of .host :: s.turns }

end Sys2Proof.Machine
end

