-- ==== Sys2Proof/Machine/Step.lean ====
section
/-! DEFINITION. The machine's step and the place where it fetches its next command. -/

namespace Sys2Proof.Machine

/-- One step: of HOST, of CORE, or a cycle with `rst` = 1 (spec/43_sequencer.md R160, spec/70_reset_and_hazards.md R230). -/
def step (s : State) : Host.Outcome State Fault Refusal := advance Config.freeAgent s

/-- The state in which HOST presents the command whose bits are `w` (numbered as spec/opcode_table.json numbers them) and
moves first, so that the next step runs it: HOST's list of transactions is what the machine fetches from (spec/30_encoding.md
R60, spec/70_reset_and_hazards.md R242; assumption log 8). -/
def State.withFetchWord (s : State) (nbits w : Nat) : State := s.present (txnOfTableWord nbits w)

end Sys2Proof.Machine
end

