-- ==== Sys2Proof/Machine/Assembler.lean ====
section
/-! DEFINITION. The assembler of spec/30_encoding.md R74 and the pseudo-commands of R75, as transactions. The branch of
WAIT_IDLE is HOST's, so it is given by how many times HOST goes round the loop. -/

namespace Sys2Proof.Machine

/-- One line of a host program (R74): a mnemonic form, or `.cmd word, value`. -/
inductive AsmLine where
  | mnemonic (i : Instr)
  | raw (word : Cmd) (value : Word)
deriving DecidableEq, Repr

/-- The transaction of a line; an index outside the range of R68 is refused in the mnemonic forms, and only `.cmd` can
produce such a word (R74). -/
def assemble : AsmLine → Option Txn
  | .mnemonic i => if i.wf then some (encode i) else none
  | .raw word value => some ⟨word, value⟩

/-- The pseudo-commands (R75). WAIT_IDLE and COMPRESS carry the number of passes HOST makes through its loop. -/
inductive Pseudo where
  | loadState (state : Vector Word 8)
  | loadBlock (block : Vector Word 16)
  | waitIdle (passes : Nat)
  | compress (passes : Nat)
  | readState
deriving DecidableEq, Repr

/-- The commands a pseudo-command expands to, in order (R75). -/
def expandPseudo : Pseudo → List Instr
  | .loadState state => (List.finRange 8).map fun k => .wrH (BitVec.ofNat 6 k.val) state[k.val]
  | .loadBlock block => (List.finRange 16).map fun j => .wrM (BitVec.ofNat 6 j.val) block[j.val]
  | .waitIdle passes => List.replicate passes .rdStatus
  | .compress passes => .start :: List.replicate passes .rdStatus
  | .readState => (List.finRange 8).map fun k => .rdH (BitVec.ofNat 6 k.val)

/-- HOST leaves the loop of WAIT_IDLE exactly after these replies: every one but the last has BUSY (bit 0) set, and the last
has it clear (R75: `L: RD_STATUS ; if rdata[0] == 1 goto L`). -/
def waitIdleEnds : List Word → Bool
  | [] => false
  | [r] => !r.getLsbD 0
  | r :: rs => r.getLsbD 0 && waitIdleEnds rs

end Sys2Proof.Machine
end

