-- ==== Sys2Proof/Machine/AsmText.lean ====
section
/-! DEFINITION. The text of a host program's line (spec/30_encoding.md R74), read from its characters: mnemonic first,
operands separated by commas, `idx` decimal or `0x` hexadecimal, `value` as `0x` and eight hexadecimal digits, and a
comment from `;` on. -/

namespace Sys2Proof.Machine

/-- The line without its comment (R74). -/
def withoutComment : List Char → List Char
  | [] => []
  | c :: cs => if c = ';' then [] else c :: withoutComment cs

/-- A character that separates words of a line. -/
def isBlank (c : Char) : Bool := c = ' ' || c = '\t'

/-- The text without blanks before and after it. -/
def trimBlanks (cs : List Char) : List Char := ((cs.dropWhile isBlank).reverse.dropWhile isBlank).reverse

/-- The pieces of a text between its commas. -/
def splitCommas : List Char → List (List Char)
  | [] => [[]]
  | c :: cs =>
    match splitCommas cs with
    | [] => [[c]]
    | p :: ps => if c = ',' then [] :: p :: ps else (c :: p) :: ps

/-- The value of a digit in a base up to sixteen; letters of either case are hexadecimal digits. -/
def digitValue (base : Nat) (c : Char) : Option Nat :=
  let n := c.toNat
  let d := if 48 ≤ n ∧ n ≤ 57 then n - 48 else if 97 ≤ n ∧ n ≤ 102 then n - 87 else if 65 ≤ n ∧ n ≤ 70 then n - 55 else 16
  if d < base then some d else none

/-- The number that digits spell, most significant first, after the digits already read. -/
def readDigits (base : Nat) : Nat → List Char → Option Nat
  | acc, [] => some acc
  | acc, c :: cs =>
    match digitValue base c with
    | some d => readDigits base (acc * base + d) cs
    | none => none

/-- A decimal or `0x` hexadecimal number (R74). -/
def readNumber : List Char → Option Nat
  | [] => none
  | '0' :: 'x' :: c :: cs => readDigits 16 0 (c :: cs)
  | c :: cs => readDigits 10 0 (c :: cs)

/-- An `idx` operand that fits the 6-bit field (R64, R74). -/
def readIdx (cs : List Char) : Option Idx :=
  match readNumber cs with
  | some n => if n < 64 then some (BitVec.ofNat 6 n) else none
  | none => none

/-- A `value` operand: `0x` followed by eight hexadecimal digits (R74). -/
def readValue : List Char → Option Word
  | '0' :: 'x' :: ds => if ds.length = 8 then (readDigits 16 0 ds).map (BitVec.ofNat 32) else none
  | _ => none

/-- A command word for `.cmd`: any 16 bits (R74). The rule gives `word` no notation of its own; that it is written like `idx`,
as a decimal or `0x` hexadecimal number, is the model's choice (assumption log 16). -/
def readCmdWord (cs : List Char) : Option Cmd :=
  match readNumber cs with
  | some n => if n < 65536 then some (BitVec.ofNat 16 n) else none
  | none => none

/-- A line's operands by its mnemonic, letter for letter as R74's table spells them. -/
def readForm (name : List Char) (operands : List (List Char)) : Option AsmLine :=
  match operands with
  | [] =>
    if name = ['N', 'O', 'P'] then some (.mnemonic .nop)
    else if name = ['S', 'T', 'A', 'R', 'T'] then some (.mnemonic .start)
    else if name = ['R', 'D', '_', 'S', 'T', 'A', 'T', 'U', 'S'] then some (.mnemonic .rdStatus)
    else if name = ['C', 'L', 'R', '_', 'E', 'R', 'R'] then some (.mnemonic .clrErr)
    else none
  | [a] =>
    if name = ['R', 'D', '_', 'H'] then (readIdx a).map fun i => .mnemonic (.rdH i)
    else if name = ['R', 'D', '_', 'M'] then (readIdx a).map fun i => .mnemonic (.rdM i)
    else if name = ['R', 'D', '_', 'K'] then (readIdx a).map fun i => .mnemonic (.rdK i)
    else none
  | [a, b] =>
    if name = ['W', 'R', '_', 'H'] then (readIdx a).bind fun i => (readValue b).map fun v => .mnemonic (.wrH i v)
    else if name = ['W', 'R', '_', 'M'] then (readIdx a).bind fun i => (readValue b).map fun v => .mnemonic (.wrM i v)
    else if name = ['.', 'c', 'm', 'd'] then (readCmdWord a).bind fun w => (readValue b).map fun v => .raw w v
    else none
  | _ => none

/-- One line of text; none where it spells no line of R74. -/
def readLine (text : List Char) : Option AsmLine :=
  let line := trimBlanks (withoutComment text)
  let name := line.takeWhile fun c => !isBlank c
  let rest := trimBlanks (line.dropWhile fun c => !isBlank c)
  readForm name (if rest = [] then [] else (splitCommas rest).map trimBlanks)

/-- A line of text to its transaction (R74); none where it spells no line or its index is outside the command's range. -/
def assembleText (text : List Char) : Option Txn := (readLine text).bind assemble

end Sys2Proof.Machine
end

