-- ==== Sys2Proof/Machine/Platform.lean ====
section
/-! DEFINITION. Several CORE instances on one platform (spec/20_memory.md R56, spec/60_exceptions.md R212): each has a state
of its own, and they share only the constant ROM, which is no state. -/

namespace Sys2Proof.Machine

/-- One instance of a platform: running in a state, or ended by a stop of its own. The spec speaks of the model fault for one
CORE's run only (R232, R242); that a stop ends the run of the instance that makes it and of no other is the model's choice
(assumption log 20), after R56: "Commands to one instance never change another". -/
inductive CoreInstance where
  | running (s : State)
  | faulted (r : Fault)
  | refused (r : Refusal)
deriving DecidableEq, Repr

/-- The instances of a platform, each with a state of its own (R56). -/
abbrev Platform := List CoreInstance

/-- One step of instance number k. Its free choices are its own, so that they are tied to no other instance's (assumption
log 17); an instance that has stopped takes no further step (assumption log 20). -/
def CoreInstance.next (k : Nat) : CoreInstance → CoreInstance
  | .running s =>
    match advance (Config.freeInstanceAgent k) s with
    | .next t => .running t
    | .fault r => .faulted r
    | .refused r => .refused r
  | .faulted r => .faulted r
  | .refused r => .refused r

/-- One step of instance k of a platform; the others are left alone. A number that names no instance does nothing. -/
def stepInstance (k : Nat) (p : Platform) : Platform :=
  match p[k]? with
  | none => p
  | some c => p.set k (c.next k)

end Sys2Proof.Machine
end

