-- ==== Sys2Proof/Safety.lean ====
section
/-! DEFINITION. What counts as the end of a run, as a successful one, and as its observation (spec/70_reset_and_hazards.md
R242, R243), the safety condition a claim about a program may state (spec/60_exceptions.md R204), and the invariant of the
machine. -/

namespace Sys2Proof.Machine

/-- A state is final when HOST has no command left and CORE is IDLE (R243). ERR plays no part. -/
def State.final (s : State) : Prop := s.host = [] ∧ s.phase = .idle

/-- A run of `k` steps from `s` ends successfully in `t`: no step faults, and `t` is final (R242). -/
def EndsIn (k : Nat) (s t : State) : Prop := Sys2Proof.core.run k s = .next t ∧ t.final

/-- What is observed of a run (R242): the returned values in order and the final (H, M, STATUS), an unwritten element of H
or M having no value. -/
structure Observation where
  replies : List Word
  h : List (Option Word)
  m : List (Option Word)
  status : Word
deriving DecidableEq, Repr

/-- The observation of a run that ends in `s` (R242). -/
def State.observe (s : State) : Observation where
  replies := s.replies
  h := (List.finRange 8).map fun k => s.readH k
  m := (List.finRange 16).map fun j => s.readM j
  status := s.status

/-- The safety condition of R204: ERR = 0. -/
def State.noError (s : State) : Prop := s.err = false

/-- Every element of H and M is written: what START asks (R177, R234). -/
def State.allWritten (s : State) : Prop :=
  (∀ k : Fin 8, s.hWritten[k.val] = true) ∧ (∀ j : Fin 16, s.mWritten[j.val] = true)

/-- The round counter agrees with the phase (R26, R27, R152): rounds 0 to 63 in phase ROUND, 64 in phase FOLD. -/
def State.rndInRange (s : State) : Prop :=
  (s.phase = .round → s.rnd.val < 64) ∧ (s.phase = .fold → s.rnd.val = 64)

/-- The schedule registers hold the block's schedule as far as it is computed: W[j] for j < 16 from START onwards, W[i] once
round step i has run (R107). -/
def State.scheduleCorrect (s : State) : Prop :=
  ∀ j : Fin 64, j.val < max 16 s.rnd.val → s.w[j.val] = (expand s.m)[j.val]

/-- The working variables are those of the rounds done so far (R129). -/
def State.varsCorrect (s : State) : Prop := s.v = roundsUpTo (expand s.m) s.h s.rnd.val

/-- The invariant. ERR = 0 implies CAUSE = 0 (R28); and while BUSY, all 24 inputs are written (R177, R171), DONE is 0 (R28),
the counter is in range, and W and V are the compression of the present H and M so far (R51, R107, R129). -/
structure State.Inv (s : State) : Prop where
  cause_of_no_err : s.err = false → s.cause = 0
  rnd_in_range : s.rndInRange
  written : s.busy = true → s.allWritten
  not_done : s.busy = true → s.done = false
  sched : s.busy = true → s.scheduleCorrect
  vars : s.busy = true → s.varsCorrect

end Sys2Proof.Machine
end

