-- ==== Sys2Proof/Certificates/Slice0/Obligations.lean ====
section
/-! DEFINITION. The statements about the model, from the numbered rules of spec/. An accepted command's next state is written
out as a record update, so each such statement is its own frame: every field the update does not name is unchanged. -/

open Sys2Proof Sys2Proof.Machine

/-! ## Encoding -/

/-- Command words written out from the fields of R61 and the opcodes of R67: OP, six zero bits, IDX. -/
def Obligations.SampleWordsDecode : Prop :=
  decode ⟨0b0000000000000000, 0⟩ = .legal .nop ∧
  decode ⟨0b0001000000000101, 0xdeadbeef⟩ = .legal (.wrH 5 0xdeadbeef) ∧
  decode ⟨0b0010000000001111, 0x18000000⟩ = .legal (.wrM 15 0x18000000) ∧
  decode ⟨0b0011000000000111, 0⟩ = .legal (.rdH 7) ∧
  decode ⟨0b0100000000001010, 0⟩ = .legal (.rdM 10) ∧
  decode ⟨0b0101000000111111, 0⟩ = .legal (.rdK 63) ∧
  decode ⟨0b0110000000000000, 0⟩ = .legal .start ∧
  decode ⟨0b0111000000000000, 0⟩ = .legal .rdStatus ∧
  decode ⟨0b1000000000000000, 0⟩ = .legal .clrErr

/-- Every well-formed command comes back from its encoding, with every operand (R72, R74). -/
def Obligations.DecodeOfEncodeIsTheCommand : Prop := ∀ i : Instr, i.wf = true → decode (encode i) = .legal i

/-- Every legal transaction is the encoding of the command it decodes to: its word exactly, and its write data where the
command uses it. The command is well formed. -/
def Obligations.EncodeOfDecodeIsTheWord : Prop :=
  ∀ (t : Txn) (i : Instr), decode t = .legal i →
    i.wf = true ∧ (encode i).cmd = t.cmd ∧
    (∀ idx x, i = .wrH idx x ∨ i = .wrM idx x → (encode i).wdata = t.wdata)

/-- The cause of an illegal word, with the priority of R203: reserved opcode, then reserved bits, then bad index; each
word has at most one, and a legal word none. The last legal index of each opcode is R68's. -/
def Obligations.IllegalCausePriority : Prop :=
  ∀ t : Txn,
    (decode t = .illegal .reservedOp ↔ 9 ≤ (opField t.cmd).toNat) ∧
    (decode t = .illegal .reservedBits ↔ (opField t.cmd).toNat ≤ 8 ∧ rsvdField t.cmd ≠ 0) ∧
    (decode t = .illegal .badIndex ↔ (opField t.cmd).toNat ≤ 8 ∧ rsvdField t.cmd = 0 ∧
      [0, 7, 15, 7, 15, 63, 0, 0, 0].getD (opField t.cmd).toNat 0 < (idxField t.cmd).toNat) ∧
    ((∃ i, decode t = .legal i) ↔ (opField t.cmd).toNat ≤ 8 ∧ rsvdField t.cmd = 0 ∧
      (idxField t.cmd).toNat ≤ [0, 7, 15, 7, 15, 63, 0, 0, 0].getD (opField t.cmd).toNat 0) ∧
    (t.cmd = 0xF0FF → decode t = .illegal .reservedOp) ∧ (t.cmd = 0x10C8 → decode t = .illegal .reservedBits)

/-- A word matches a row of the opcode map exactly when it decodes to that row's command, and the rows do not overlap. -/
def Obligations.OpcodeMapIsTheDecoder : Prop :=
  (∀ (c : Cmd) (v : Word) (n : Nat) (hn : n < opcodeMap.length),
    opcodeMap[n].covers c = true ↔ ∃ i, decode ⟨c, v⟩ = .legal i ∧ i.op.toNat = n) ∧
  (∀ (c : Cmd) (n k : Nat) (hn : n < opcodeMap.length) (hk : k < opcodeMap.length),
    opcodeMap[n].covers c = true → opcodeMap[k].covers c = true → n = k)

/-- The legality conditions in full, and how many of the 65,536 words meet them (R68). -/
def Obligations.LegalWordCount : Prop :=
  (∀ (op : BitVec 4) (idx : Idx) (v : Word), (∃ i, decode ⟨cmdWord op idx, v⟩ = .legal i) ↔
    op.toNat ≤ 8 ∧ (op ∈ [0x0, 0x6, 0x7, 0x8] → idx = 0) ∧ (op ∈ [0x1, 0x3] → idx.toNat ≤ 7) ∧
      (op ∈ [0x2, 0x4] → idx.toNat ≤ 15)) ∧
  (∀ (c : Cmd) (v : Word), rsvdField c ≠ 0 → ¬ ∃ i, decode ⟨c, v⟩ = .legal i) ∧
  (Finset.univ.filter fun n : Fin 65536 => legalWord (BitVec.ofNat 16 n.val) = true).card = 116

/-- The write data is an operand of WR_H and WR_M only (R65): a word of any other opcode decodes to the same command for
every write data, and a legal WR_H or WR_M word carries its write data whole. -/
def Obligations.WriteDataOnlyForWrites : Prop :=
  (∀ (c : Cmd) (a b : Word), opField c ≠ 1 → opField c ≠ 2 → decode ⟨c, a⟩ = decode ⟨c, b⟩) ∧
  (∀ (c : Cmd) (a : Word) (i : Instr), decode ⟨c, a⟩ = .legal i → opField c = 1 → i = .wrH (idxField c) a) ∧
  (∀ (c : Cmd) (a : Word) (i : Instr), decode ⟨c, a⟩ = .legal i → opField c = 2 → i = .wrM (idxField c) a)

/-- The assembler (R74): a mnemonic form with a legal index gives its word, one outside the range is refused, and `.cmd`
gives any word. The encoded words are those of R74's table. -/
def Obligations.AssemblerForms : Prop :=
  (∀ i : Instr, i.wf = true → assemble (.mnemonic i) = some (encode i)) ∧
  (∀ i : Instr, i.wf = false → assemble (.mnemonic i) = none) ∧
  (∀ (word : Cmd) (value : Word), assemble (.raw word value) = some ⟨word, value⟩) ∧
  (∀ (idx : Idx) (value : Word),
    encode (.wrH idx value) = ⟨0x1000 ||| idx.setWidth 16, value⟩ ∧
    encode (.wrM idx value) = ⟨0x2000 ||| idx.setWidth 16, value⟩ ∧
    encode (.rdH idx) = ⟨0x3000 ||| idx.setWidth 16, 0⟩ ∧
    encode (.rdM idx) = ⟨0x4000 ||| idx.setWidth 16, 0⟩ ∧
    encode (.rdK idx) = ⟨0x5000 ||| idx.setWidth 16, 0⟩) ∧
  encode .nop = ⟨0x0000, 0⟩ ∧ encode .start = ⟨0x6000, 0⟩ ∧ encode .rdStatus = ⟨0x7000, 0⟩ ∧ encode .clrErr = ⟨0x8000, 0⟩

/-- The pseudo-commands' expansions, in order (R75); HOST leaves the loop of WAIT_IDLE at the first reply with BUSY = 0.
Giving the number of passes is the model's choice (assumption log 14). -/
def Obligations.PseudoCommandExpansions : Prop :=
  (∀ a b c d e f g h : Word, expandPseudo (.loadState #v[a, b, c, d, e, f, g, h]) =
    [.wrH 0 a, .wrH 1 b, .wrH 2 c, .wrH 3 d, .wrH 4 e, .wrH 5 f, .wrH 6 g, .wrH 7 h]) ∧
  (∀ block : Vector Word 16, ∀ j : Fin 16,
    (expandPseudo (.loadBlock block))[j.val]? = some (.wrM (BitVec.ofNat 6 j.val) block[j.val])) ∧
  (∀ block : Vector Word 16, (expandPseudo (.loadBlock block)).length = 16) ∧
  (∀ n : Nat, expandPseudo (.compress n) = .start :: expandPseudo (.waitIdle n)) ∧
  (∀ n : Nat, expandPseudo (.waitIdle n) = List.replicate n .rdStatus) ∧
  expandPseudo .readState = [.rdH 0, .rdH 1, .rdH 2, .rdH 3, .rdH 4, .rdH 5, .rdH 6, .rdH 7] ∧
  (∀ rs : List Word, waitIdleEnds rs = true ↔
    ∃ pre last, rs = pre ++ [last] ∧ (∀ r ∈ pre, r.getLsbD 0 = true) ∧ last.getLsbD 0 = false)

/-! ## Datapath operators -/

/-- `rotr(x, n)[b] = x[(b + n) mod 32]`, the corner cases and the example of R80. -/
def Obligations.RotrMovesEveryBit : Prop :=
  (∀ (x : Word) (n : Nat) (h : 1 ≤ n ∧ n ≤ 31),
    (∀ b : Nat, b < 32 → (rotr x n h).getLsbD b = x.getLsbD ((b + n) % 32)) ∧
    rotr x n h = (x >>> n) ||| (x <<< (32 - n)) ∧
    rotr 0 n h = 0 ∧ rotr 0xFFFFFFFF n h = 0xFFFFFFFF) ∧
  rotr 0x12345678 7 = 0xF02468AC

/-- `shr(x, n)[b] = x[b + n]` if `b + n <= 31`, and 0 otherwise (R81). -/
def Obligations.ShrFillsWithZeros : Prop :=
  (∀ (x : Word) (n b : Nat), b < 32 → (shr x n).getLsbD b = if b + n ≤ 31 then x.getLsbD (b + n) else false) ∧
  shr 0x80000000 3 = 0x10000000 ∧ shr 0xFFFFFFFF 10 = 0x003FFFFF ∧ shr 0x12345678 3 = 0x02468ACF

/-- add32 is the sum on naturals modulo 2^32, whatever the grouping and the order (R82). -/
def Obligations.AddIsModularInAnyGrouping : Prop :=
  (∀ xs : List Word, (add32 xs).toNat = (xs.map BitVec.toNat).sum % 2 ^ 32) ∧
  (∀ xs ys : List Word, add32 (xs ++ ys) = add32 [add32 xs, add32 ys]) ∧
  (∀ xs ys : List Word, xs.Perm ys → add32 xs = add32 ys) ∧
  add32 [0xFFFFFFFF, 1] = 0 ∧ add32 [0x80000000, 0x80000000] = 0 ∧
  add32 [0xFFFFFFFF, 0xFFFFFFFF, 0xFFFFFFFF, 0xFFFFFFFF, 0xFFFFFFFF] = 0xFFFFFFFB ∧
  add32 [0x12345678, 0xF0000000] = 0x02345678

/-- bswap32 reverses the four bytes, so it is its own inverse (R83). -/
def Obligations.BswapReversesTheBytes : Prop :=
  (∀ (x : Word) (k b : Nat), k < 4 → b < 8 → (bswap32 x).getLsbD (8 * k + b) = x.getLsbD (8 * (3 - k) + b)) ∧
  (∀ x : Word, bswap32 (bswap32 x) = x) ∧
  bswap32 0x00000080 = 0x80000000 ∧ bswap32 0x80000000 = 0x00000080 ∧ bswap32 0x12345678 = 0x78563412

/-- The four sigma functions bit by bit, with the wired amounts of R90 (R84 to R87). -/
def Obligations.SigmaFunctionsBitByBit : Prop :=
  ∀ (x : Word) (b : Nat), b < 32 →
    (sigma0 x).getLsbD b =
      (x.getLsbD ((b + 7) % 32) ^^ x.getLsbD ((b + 18) % 32) ^^ (decide (b + 3 ≤ 31) && x.getLsbD (b + 3))) ∧
    (sigma1 x).getLsbD b =
      (x.getLsbD ((b + 17) % 32) ^^ x.getLsbD ((b + 19) % 32) ^^ (decide (b + 10 ≤ 31) && x.getLsbD (b + 10))) ∧
    (Sigma0 x).getLsbD b = (x.getLsbD ((b + 2) % 32) ^^ x.getLsbD ((b + 13) % 32) ^^ x.getLsbD ((b + 22) % 32)) ∧
    (Sigma1 x).getLsbD b = (x.getLsbD ((b + 6) % 32) ^^ x.getLsbD ((b + 11) % 32) ^^ x.getLsbD ((b + 25) % 32))

/-- Ch selects f where e is 1 and g where e is 0; Maj is 1 where at least two of its bits are 1; and both equal the other
forms of R92 on all inputs. -/
def Obligations.ChooseAndMajority : Prop :=
  ∀ a b c : Word,
    (∀ n : Nat, (Ch a b c).getLsbD n = if a.getLsbD n then b.getLsbD n else c.getLsbD n) ∧
    (∀ n : Nat, (Maj a b c).getLsbD n =
      decide (2 ≤ (a.getLsbD n).toNat + (b.getLsbD n).toNat + (c.getLsbD n).toNat)) ∧
    Ch a b c = (a &&& b) ^^^ (~~~a &&& c) ∧
    Maj a b c = (a &&& b) ^^^ (a &&& c) ^^^ (b &&& c)

/-! ## Message Schedule Expander -/

/-- Stream bytes packed little-endian into M words come out big-endian in the schedule (R41). -/
def Obligations.StreamBytesBecomeBigEndian : Prop :=
  (∀ (m : Vector Word 16) (j : Nat) (hj : j < 16) (b0 b1 b2 b3 : BitVec 8),
    m[j] = b3 ++ b2 ++ b1 ++ b0 → (expand m)[j] = b0 ++ b1 ++ b2 ++ b3) ∧
  bswap32 0x80636261 = 0x61626380

/-- The equations of Expand (R107). -/
def Obligations.ExpandEquations : Prop :=
  ∀ m : Vector Word 16,
    (∀ (j : Nat) (hj : j < 16), (expand m)[j] = bswap32 m[j]) ∧
    (∀ (i : Nat) (h16 : 16 ≤ i) (h64 : i < 64), (expand m)[i] =
      add32 [(expand m)[i - 16], (expand m)[i - 7], sigma0 (expand m)[i - 15], sigma1 (expand m)[i - 2]])

/-- SCHED(i) reads four words and no other, and writes W[i] alone (R104). -/
def Obligations.ScheduleDependsOnFourWords : Prop :=
  ∀ (i : Nat) (h16 : 16 ≤ i) (h64 : i < 64) (w w' : Vector Word 64),
    w[i - 16] = w'[i - 16] → w[i - 7] = w'[i - 7] → w[i - 15] = w'[i - 15] → w[i - 2] = w'[i - 2] →
    (scheduleAt i w)[i] = (scheduleAt i w')[i] ∧
    (∀ (j : Nat) (hj : j < 64), j ≠ i → (scheduleAt i w)[j] = w[j])

/-- The 16-word window gives the same schedule word and stays the window of the 64-word form (R105). -/
def Obligations.WindowFormAgrees : Prop :=
  ∀ (i : Nat) (h16 : 16 ≤ i) (h64 : i < 64) (w : Vector Word 64),
    windowWord (windowAt i ⟨h16, by omega⟩ w) = (scheduleAt i w)[i] ∧
    windowShift (windowAt i ⟨h16, by omega⟩ w) = windowAt (i + 1) ⟨by omega, by omega⟩ (scheduleAt i w)

/-! ## Constant ROM and round engine -/

/-- K[i] = floor(cbrt(p_i * 2^96)) mod 2^32, p_i the (i+1)-th prime (R121). -/
def Obligations.RomHoldsTheCubeRoots : Prop :=
  ∀ (i : Nat) (hi : i < 64), ∃ c : Nat,
    c ^ 3 ≤ Nat.nth Nat.Prime i * 2 ^ 96 ∧ Nat.nth Nat.Prime i * 2 ^ 96 < (c + 1) ^ 3 ∧ romK[i].toNat = c % 2 ^ 32

/-- The binding of roles to working variables (R124): the first two rounds, and one step of rotation every round. -/
def Obligations.RoleBindingRotates : Prop :=
  (∀ (r : Role) (i : Nat), ((binding r i).val + i) % 8 = r.num.val) ∧
  (∀ (r : Role) (i : Nat), binding r (i + 8) = binding r i) ∧
  (∀ r : Role, binding r 0 = r.num) ∧ (∀ r : Role, binding r 64 = r.num) ∧
  binding .A 1 = 7 ∧ binding .B 1 = 0 ∧ binding .C 1 = 1 ∧ binding .D 1 = 2 ∧
  binding .E 1 = 3 ∧ binding .F 1 = 4 ∧ binding .G 1 = 5 ∧ binding .H 1 = 6

/-- ROUND(i) (R125): the values written to the two variables bound to D and H, from the values before the round; the other
six left alone, and the rotation advances by one position per round (R126). -/
def Obligations.RoundWritesTwoVariables : Prop :=
  ∀ (i : Nat) (k w : Word) (v : Vector Word 8),
    let old (r : Role) : Word := v[binding r i]
    let T1 : Word := old .H + Sigma1 (old .E) + Ch (old .E) (old .F) (old .G) + k + w
    (roundVars i k w v)[binding .D i] = old .D + T1 ∧
    (roundVars i k w v)[binding .H i] = T1 + Sigma0 (old .A) + Maj (old .A) (old .B) (old .C) ∧
    (∀ j : Fin 8, j ≠ binding .D i → j ≠ binding .H i → (roundVars i k w v)[j] = v[j]) ∧
    (∀ r : Role, binding r (i + 1) = binding r i - 1)

/-- The shifting form of the rounds (R127): after n rounds its role register r is `V[(r - n) mod 8]`, and after all 64 the
two forms hold the same eight values. -/
def Obligations.ShiftingFormAgrees : Prop :=
  ∀ (ws : Vector Word 64) (v : Vector Word 8),
    (∀ (n : Nat) (r : Role), n ≤ 64 → (shiftRoundsUpTo ws v n)[r.num] = (roundsUpTo ws v n)[binding r n]) ∧
    shiftRoundsUpTo ws v 64 = roundsUpTo ws v 64

/-! ## Sequencer -/

/-- A round step (R152), for i = rnd from 0 to 63: SCHED(i) where i is at least 16, ROUND(i) with the W[i] of this step,
rnd, and FOLD after round 63; nothing else changes. -/
def Obligations.RoundStepEffect : Prop :=
  ∀ (s : State) (hi : s.rnd.val < 64), s.phase = .round →
    ∃ t, coreStep s = .next t ∧
      (∀ h16 : 16 ≤ s.rnd.val, t.w[s.rnd.val] = add32 [s.w[s.rnd.val - 16], s.w[s.rnd.val - 7],
        sigma0 s.w[s.rnd.val - 15], sigma1 s.w[s.rnd.val - 2]]) ∧
      (∀ (j : Nat) (hj : j < 64), j ≠ s.rnd.val ∨ s.rnd.val < 16 → t.w[j] = s.w[j]) ∧
      t.v = roundVars s.rnd.val romK[s.rnd.val] t.w[s.rnd.val] s.v ∧
      t.rnd.val = s.rnd.val + 1 ∧
      (s.rnd.val = 63 → t.phase = .fold) ∧ (s.rnd.val ≠ 63 → t.phase = .round) ∧
      t = { s with w := t.w, v := t.v, rnd := t.rnd, phase := t.phase }

/-- The fold step (R153): H, BUSY and DONE in one step; no other register changes. Of the written flags of H, which R153 does
not name, it says that what is written stays written (R232). -/
def Obligations.FoldStepEffect : Prop :=
  ∀ s : State, s.phase = .fold →
    ∃ t, coreStep s = .next t ∧ (∀ k : Fin 8, t.h[k] = s.h[k] + s.v[k]) ∧
      t = { s with h := t.h, hWritten := t.hWritten, phase := .idle, done := true } ∧
      (∀ k : Fin 8, s.hWritten[k] = true → t.hWritten[k] = true)

/-- In phase IDLE CORE changes no state (R154). Answering the same state is the model's choice (assumption log 4). -/
def Obligations.IdleHasNoCoreStep : Prop := ∀ s : State, s.phase = .idle → coreStep s = .next s

/-- Exactly 65 core steps after START (R156): 64 round steps with rnd from 0 to 63, then one fold step, whatever the data. -/
def Obligations.SixtyFiveCoreSteps : Prop :=
  ∀ s : State, s.phase = .round → s.rnd = 0 →
    (∀ n : Nat, n < 64 → ∃ t, coreSteps n s = .next t ∧ t.phase = .round ∧ t.rnd.val = n) ∧
    (∃ t, coreSteps 64 s = .next t ∧ t.phase = .fold ∧ t.rnd.val = 64 ∧ t.h = s.h) ∧
    (∃ t, coreSteps 65 s = .next t ∧ t.phase = .idle ∧ t.done = true)

/-- One compression end to end (R159), from START accepted with H = h0 and M = m0. CORE's 65 steps alone leave
H = Compress(h0, m0), DONE = 1, BUSY = 0 and M = m0. And in every run of the machine in which no listed choice is `rst`,
whatever HOST presents and whichever agent moves, the step that first clears BUSY leaves the same H and M, with ERR and CAUSE
as HOST's commands left them before it. That the reset input is a listed choice is the model's form (assumption log 3). -/
def Obligations.CompressionEndToEnd : Prop :=
  (∀ s : State, s.busy = false → s.allWritten →
    ∃ s0 t, exec .start s = .next s0 ∧ coreSteps 65 s0 = .next t ∧
      t.h = compress s.h s.m ∧ t.done = true ∧ t.busy = false ∧ t.m = s.m ∧ t.err = s.err ∧ t.cause = s.cause ∧
      t.hWritten = s.hWritten ∧ t.mWritten = s.mWritten ∧ t.host = s.host.tail ∧ t.replies = s.replies ++ [0]) ∧
  (∀ (n : Nat) (s s0 u t : State), s.busy = false → exec .start s = .next s0 → (∀ x ∈ s0.turns, x ≠ .rst) →
    (∀ k, k ≤ n → ∃ v, Sys2Proof.core.run k s0 = .next v ∧ v.busy = true) →
    Sys2Proof.core.run n s0 = .next u → step u = .next t → t.busy = false →
      t.h = compress s.h s.m ∧ t.done = true ∧ t.m = s.m ∧ t.err = u.err ∧ t.cause = u.cause)

/-- A START with no new block compresses the same block again, into the new H (R238, R177). -/
def Obligations.SecondStartChains : Prop :=
  ∀ s : State, s.busy = false → s.allWritten →
    ∃ s0 s1 s2 t, exec .start s = .next s0 ∧ coreSteps 65 s0 = .next s1 ∧ exec .start s1 = .next s2 ∧
      coreSteps 65 s2 = .next t ∧ t.h = compress (compress s.h s.m) s.m ∧ t.m = s.m

/-- What W, V and rnd hold before START does not matter: two states that differ in them alone end in one state (R33). -/
def Obligations.ScratchBeforeStartIsNeverRead : Prop :=
  ∀ (s : State) (w : Vector Word 64) (v : Vector Word 8) (rnd : Fin 65), s.busy = false → s.allWritten →
    ∃ a b t, exec .start s = .next a ∧ exec .start { s with w := w, v := v, rnd := rnd } = .next b ∧
      coreSteps 65 a = .next t ∧ coreSteps 65 b = .next t

/-- The invariant holds after reset. The contents of H, M, W and V there are the model's choice (assumption log 2) and the
invariant says nothing of them. -/
def Obligations.InvariantAtReset : Prop := State.reset.Inv

/-- Every step keeps the invariant: ERR = 0 implies CAUSE = 0 (R28), and while BUSY the 24 inputs are written, DONE is 0,
rnd agrees with the phase, and W and V are the compression of the present H and M as far as it has come. -/
def Obligations.EveryStepKeepsTheInvariant : Prop := ∀ s t : State, s.Inv → step s = .next t → t.Inv

/-- While BUSY, whichever agent moves, H and M do not change until the fold, and the step that clears BUSY leaves the new
chaining value in H with DONE set (R50, R51). -/
def Obligations.CompressionIsAtomicForHost : Prop :=
  ∀ s t : State, s.Inv → s.busy = true → (∀ ts, s.turns ≠ .rst :: ts) → step s = .next t →
    (t.busy = true ∧ t.h = s.h ∧ t.m = s.m ∧ t.done = false) ∨
    (t.busy = false ∧ t.h = compress s.h s.m ∧ t.m = s.m ∧ t.done = true ∧ t.host = s.host ∧ t.replies = s.replies)

/-- From a state of the invariant a step faults only where CORE is IDLE and the transaction HOST presents reads an element
that is unwritten: RD_H or RD_M of it, or START with it among its inputs (R232). Nothing a core step computes can stop
(R200). -/
def Obligations.OnlyUnwrittenReadsFault : Prop :=
  ∀ s : State, s.Inv →
    (∃ t, step s = .next t) ∨
    (s.busy = false ∧ ∃ x rest r, s.host = x :: rest ∧ step s = .fault (.unwrittenRead r) ∧
      ((∃ (idx : Idx) (k : Fin 8), decode x = .legal (.rdH idx) ∧ idx.toNat = k.val ∧ r = .h k ∧ s.hWritten[k] = false) ∨
       (∃ (idx : Idx) (j : Fin 16), decode x = .legal (.rdM idx) ∧ idx.toNat = j.val ∧ r = .m j ∧ s.mWritten[j] = false) ∨
       (decode x = .legal .start ∧
         ((∃ k : Fin 8, r = .h k ∧ s.hWritten[k] = false) ∨ ∃ j : Fin 16, r = .m j ∧ s.mWritten[j] = false))))

/-- Control flow does not depend on data (R158): two states with the same phase and rnd take the same kind of core step,
whatever else they hold. -/
def Obligations.ControlFlowIgnoresData : Prop :=
  ∀ s t : State, s.phase = t.phase → s.rnd = t.rnd →
    ((∃ s', coreStep s = .next s') ↔ (∃ t', coreStep t = .next t')) ∧
    (∀ s' t', coreStep s = .next s' → coreStep t = .next t' → s'.phase = t'.phase ∧ s'.rnd = t'.rnd)

/-- What CORE's own steps write (R157): never M, ERR or CAUSE, nor the host interface; H only in the fold step. That the
written flags stay too, in the fold step of every state, is the model's reading of R232 (assumption log 10). -/
def Obligations.CoreStepsWriteOnly : Prop :=
  ∀ s t : State, coreStep s = .next t →
    t.m = s.m ∧ t.err = s.err ∧ t.cause = s.cause ∧ t.hWritten = s.hWritten ∧ t.mWritten = s.mWritten ∧
    t.host = s.host ∧ t.replies = s.replies ∧ t.turns = s.turns ∧ t.draws = s.draws ∧ (s.phase ≠ .fold → t.h = s.h)

/-- Where both agents are enabled, either may be next (R160): each for its own listed choice; and with no choice listed the
step is one of the two, for every value of the free choice. The list of choices is the model's own (assumption log 3). -/
def Obligations.EitherAgentMayBeNext : Prop :=
  ∀ s : State, s.hostReady = true → s.busy = true →
    (∀ ts, step { s with turns := .of .host :: ts } = hostStep { s with turns := ts }) ∧
    (∀ ts, step { s with turns := .of .core :: ts } = coreStep { s with turns := ts }) ∧
    (s.turns = [] → step s = hostStep { s with draws := s.draws + 1 } ∨ step s = coreStep { s with draws := s.draws + 1 })

/-! ## Host commands -/

/-- NOP (R172): word 0x0000, accepted in every phase, returns 0 and changes no register. -/
def Obligations.NopReturnsZero : Prop :=
  (∀ v : Word, decode ⟨0x0000, v⟩ = .legal .nop) ∧
  (∀ (c : Cmd) (v : Word), opField c = 0 → rsvdField c ≠ 0 ∨ idxField c ≠ 0 → ∃ cause, decode ⟨c, v⟩ = .illegal cause) ∧
  (∀ s : State, exec .nop s = .next { s with host := s.host.tail, replies := s.replies ++ [0] })

/-- WR_H (R173): word 0x1000 | idx; held while BUSY; then H[idx] is the value and is written, and 0 is returned. -/
def Obligations.WrHWritesOneElement : Prop :=
  (∀ (idx : Idx) (x : Word), idx.toNat ≤ 7 → decode ⟨0x1000 ||| idx.setWidth 16, x⟩ = .legal (.wrH idx x)) ∧
  (∀ (idx : Idx) (x : Word), 8 ≤ idx.toNat → decode ⟨0x1000 ||| idx.setWidth 16, x⟩ = .illegal .badIndex) ∧
  (∀ (idx : Idx) (x : Word) (s : State), idx.toNat < 8 → s.busy = true → exec (.wrH idx x) s = .next s) ∧
  (∀ (idx : Idx) (x : Word) (s : State) (hi : idx.toNat < 8), s.busy = false →
    exec (.wrH idx x) s = .next { s with
      h := s.h.set idx.toNat x
      hWritten := s.hWritten.set idx.toNat true
      host := s.host.tail
      replies := s.replies ++ [0] })

/-- WR_M (R174): word 0x2000 | idx; held while BUSY; then M[idx] is the value, not swapped, and is written. -/
def Obligations.WrMWritesOneElement : Prop :=
  (∀ (idx : Idx) (x : Word), idx.toNat ≤ 15 → decode ⟨0x2000 ||| idx.setWidth 16, x⟩ = .legal (.wrM idx x)) ∧
  (∀ (idx : Idx) (x : Word), 16 ≤ idx.toNat → decode ⟨0x2000 ||| idx.setWidth 16, x⟩ = .illegal .badIndex) ∧
  (∀ (idx : Idx) (x : Word) (s : State), idx.toNat < 16 → s.busy = true → exec (.wrM idx x) s = .next s) ∧
  (∀ (idx : Idx) (x : Word) (s : State) (hi : idx.toNat < 16), s.busy = false →
    exec (.wrM idx x) s = .next { s with
      m := s.m.set idx.toNat x
      mWritten := s.mWritten.set idx.toNat true
      host := s.host.tail
      replies := s.replies ++ [0] })

/-- RD_H (R175): word 0x3000 | idx; held while BUSY; then H[idx] is returned and no register changes, or the model fault
UnwrittenRead(H[idx]) where nothing has written the element since reset. -/
def Obligations.RdHReturnsTheElement : Prop :=
  (∀ (idx : Idx) (v : Word), idx.toNat ≤ 7 → decode ⟨0x3000 ||| idx.setWidth 16, v⟩ = .legal (.rdH idx)) ∧
  (∀ (idx : Idx) (s : State), idx.toNat < 8 → s.busy = true → exec (.rdH idx) s = .next s) ∧
  (∀ (idx : Idx) (s : State) (hi : idx.toNat < 8), s.busy = false → s.hWritten[idx.toNat] = true →
    exec (.rdH idx) s = .next { s with host := s.host.tail, replies := s.replies ++ [s.h[idx.toNat]] }) ∧
  (∀ (idx : Idx) (s : State) (hi : idx.toNat < 8), s.busy = false → s.hWritten[idx.toNat] = false →
    exec (.rdH idx) s = .fault (.unwrittenRead (.h ⟨idx.toNat, hi⟩)))

/-- RD_M (R176): word 0x4000 | idx; held while BUSY; then M[idx] as it was written, or UnwrittenRead(M[idx]). -/
def Obligations.RdMReturnsTheElement : Prop :=
  (∀ (idx : Idx) (v : Word), idx.toNat ≤ 15 → decode ⟨0x4000 ||| idx.setWidth 16, v⟩ = .legal (.rdM idx)) ∧
  (∀ (idx : Idx) (s : State), idx.toNat < 16 → s.busy = true → exec (.rdM idx) s = .next s) ∧
  (∀ (idx : Idx) (s : State) (hi : idx.toNat < 16), s.busy = false → s.mWritten[idx.toNat] = true →
    exec (.rdM idx) s = .next { s with host := s.host.tail, replies := s.replies ++ [s.m[idx.toNat]] }) ∧
  (∀ (idx : Idx) (s : State) (hi : idx.toNat < 16), s.busy = false → s.mWritten[idx.toNat] = false →
    exec (.rdM idx) s = .fault (.unwrittenRead (.m ⟨idx.toNat, hi⟩)))

/-- RD_K (R178): word 0x5000 | idx for every 6-bit index, accepted in every phase; returns K[idx]. -/
def Obligations.RdKReturnsTheConstant : Prop :=
  (∀ (idx : Idx) (v : Word), decode ⟨0x5000 ||| idx.setWidth 16, v⟩ = .legal (.rdK idx)) ∧
  (∀ (idx : Idx) (s : State), exec (.rdK idx) s =
    .next { s with host := s.host.tail, replies := s.replies ++ [romK[idx.toNat]'(by omega)] }) ∧
  romK[0] = 0x428a2f98 ∧ romK[63] = 0xc67178f2

/-- START (R177): word 0x6000; held while BUSY; then INIT (R151) and 0 is returned, with ERR, CAUSE, H and M unchanged. -/
def Obligations.StartPerformsInit : Prop :=
  (∀ v : Word, decode ⟨0x6000, v⟩ = .legal .start) ∧
  (∀ s : State, s.busy = true → exec .start s = .next s) ∧
  (∀ s : State, s.busy = false → s.allWritten →
    ∃ w : Vector Word 64, (∀ (j : Nat) (hj : j < 16), w[j] = bswap32 s.m[j]) ∧
      (∀ (j : Nat) (hj : j < 64), 16 ≤ j → w[j] = s.w[j]) ∧
      exec .start s = .next { s with
        w := w
        v := s.h
        rnd := 0
        phase := .round
        done := false
        host := s.host.tail
        replies := s.replies ++ [0] })

/-- START with an unwritten input is the model fault UnwrittenRead of an element that is unwritten (R177, R232). -/
def Obligations.StartFaultsOnUnwrittenInput : Prop :=
  ∀ s : State, s.busy = false → ¬ s.allWritten →
    (∃ k : Fin 8, s.hWritten[k] = false ∧ exec .start s = .fault (.unwrittenRead (.h k))) ∨
    (∃ j : Fin 16, s.mWritten[j] = false ∧ exec .start s = .fault (.unwrittenRead (.m j)))

/-- RD_STATUS (R179): word 0x7000, accepted in every phase; returns the STATUS word and changes no register. -/
def Obligations.RdStatusReturnsStatus : Prop :=
  (∀ v : Word, decode ⟨0x7000, v⟩ = .legal .rdStatus) ∧
  (∀ s : State, exec .rdStatus s = .next { s with
    host := s.host.tail
    replies := s.replies ++ [(0 : BitVec 26) ++ s.cause ++ (0 : BitVec 1) ++ BitVec.ofBool s.err ++
      BitVec.ofBool s.done ++ BitVec.ofBool (decide (s.phase ≠ .idle))] })

/-- CLR_ERR (R180): word 0x8000, accepted in every phase; ERR and CAUSE become 0 and 0 is returned. -/
def Obligations.ClrErrClearsErrAndCause : Prop :=
  (∀ v : Word, decode ⟨0x8000, v⟩ = .legal .clrErr) ∧
  (∀ s : State, exec .clrErr s = .next { s with
    err := false
    cause := 0
    host := s.host.tail
    replies := s.replies ++ [0] })

/-- An illegal word is accepted at once in every phase (R181): ERR is set, CAUSE takes the cause's code of R201 if ERR was 0,
0 is returned and nothing else changes (R202). -/
def Obligations.IllegalCommandEffect : Prop :=
  ∀ (s : State) (t : Txn) (rest : List Txn) (c : IllegalCause), s.host = t :: rest → decode t = .illegal c →
    s.hostReady = true ∧
    hostStep s = .next { s with
      err := true
      cause := if s.err then s.cause else
        match c with
        | .reservedOp => 1
        | .reservedBits => 2
        | .badIndex => 3
      host := rest
      replies := s.replies ++ [0] }

/-- A term with an index outside its command's range is the illegal word it encodes to (R64, R69; the model's choice for
terms no word decodes to, assumption log 7). -/
def Obligations.BadIndexTermIsTheIllegalWord : Prop :=
  ∀ (i : Instr) (s : State), i.wf = false →
    decode (encode i) = .illegal .badIndex ∧
    exec i s = .next { s with
      err := true
      cause := if s.err then s.cause else 3
      host := s.host.tail
      replies := s.replies ++ [0] }

/-- The BUSY hold (R171): exactly the five held commands are not accepted while BUSY, and every other word, the illegal ones
included, is never held; the presented transaction stays and nothing changes, and unless `rst` comes CORE clears BUSY within
65 steps, with nothing accepted in between. From a state of the invariant the step after that accepts the command. That the reset input is a listed choice is the model's form (assumption log 3). -/
def Obligations.HeldUntilTheFold : Prop :=
  (∀ i : Instr, heldCommand i = true ↔
    (∃ idx x, i = .wrH idx x) ∨ (∃ idx x, i = .wrM idx x) ∨ (∃ idx, i = .rdH idx) ∨ (∃ idx, i = .rdM idx) ∨ i = .start) ∧
  (∀ (i : Instr) (s : State), i.wf = true → heldCommand i = true → s.busy = true → exec i s = .next s) ∧
  (∀ (s : State) (t : Txn) (rest : List Txn), s.host = t :: rest →
    (s.hostReady = false ↔ s.busy = true ∧ ∃ i, decode t = .legal i ∧ heldCommand i = true)) ∧
  (∀ (s : State) (t : Txn) (rest : List Txn) (i : Instr), s.host = t :: rest → decode t = .legal i → heldCommand i = true →
    s.busy = true → s.rndInRange → (∀ u ∈ s.turns.take 65, u ≠ .rst) →
    s.hostReady = false ∧
    ∃ n u, n ≤ 65 ∧ Sys2Proof.core.run n s = .next u ∧ u.busy = false ∧ u.hostReady = true ∧
      u.host = s.host ∧ u.replies = s.replies ∧ u.m = s.m ∧ u.err = s.err ∧ u.cause = s.cause) ∧
  (∀ (s : State) (t : Txn) (rest : List Txn) (i : Instr), s.host = t :: rest → decode t = .legal i → heldCommand i = true →
    s.busy = true → s.Inv → (∀ u ∈ s.turns.take 66, u ≠ .rst) →
    ∃ n u v x, n ≤ 65 ∧ Sys2Proof.core.run n s = .next u ∧ u.busy = false ∧ u.host = s.host ∧ u.replies = s.replies ∧
      step u = .next v ∧ v.host = rest ∧ v.replies = s.replies ++ [x])

/-- A step runs the decoded command: where the transaction HOST presents decodes to a command that is not held, and HOST is
the one to move, the step is that command's effect on the state with the choice taken off. The list of choices and the place
of HOST's transactions are the model's own (assumption logs 3 and 8). -/
def Obligations.StepRunsTheDecodedCommand : Prop :=
  (∀ (s : State) (t : Txn) (rest : List Txn) (ts : List Turn) (i : Instr),
    s.host = t :: rest → decode t = .legal i → (heldCommand i = false ∨ s.busy = false) →
    (s.turns = .of .host :: ts → step s = exec i { s with turns := ts }) ∧
    (s.turns = .of .core :: ts → s.busy = false → step s = exec i { s with turns := ts }) ∧
    (s.turns = [] → s.busy = false → step s = exec i { s with draws := s.draws + 1 })) ∧
  (∀ (s : State) (nbits w : Nat) (i : Instr), decodeTableWord nbits w = some i →
    (heldCommand i = false ∨ s.busy = false) →
    step (s.withFetchWord nbits w) = exec i { s with host := txnOfTableWord nbits w :: s.host })

/-- Each bit of the STATUS word (R28), and the output pins (R206). -/
def Obligations.StatusBitsAreTheFields : Prop :=
  ∀ s : State,
    s.status.getLsbD 0 = decide (s.phase ≠ .idle) ∧ s.status.getLsbD 1 = s.done ∧ s.status.getLsbD 2 = s.err ∧
    s.status.getLsbD 3 = false ∧ s.status.extractLsb' 4 2 = s.cause ∧ s.status.extractLsb' 6 26 = 0 ∧
    s.busyPin = s.status.getLsbD 0 ∧ s.donePin = s.status.getLsbD 1

/-- What each command may change, over all commands: H only WR_H, M only WR_M, the sequencer's registers and DONE only
START, ERR and CAUSE only CLR_ERR or the illegal word of a bad index (a term no word decodes to, assumption log 7). -/
def Obligations.CommandsWriteOnly : Prop :=
  ∀ (i : Instr) (s t : State), exec i s = .next t →
    ((∃ idx x, i = .wrH idx x) ∨ t.h = s.h ∧ t.hWritten = s.hWritten) ∧
    ((∃ idx x, i = .wrM idx x) ∨ t.m = s.m ∧ t.mWritten = s.mWritten) ∧
    (i = .start ∨ t.w = s.w ∧ t.v = s.v ∧ t.rnd = s.rnd ∧ t.phase = s.phase ∧ t.done = s.done) ∧
    (i = .clrErr ∨ i.wf = false ∨ t.err = s.err ∧ t.cause = s.cause) ∧
    t.turns = s.turns ∧ t.draws = s.draws

/-- Reads have no side effect and repeat their value; a repeated write leaves the same registers (R46). -/
def Obligations.ReadsAndWritesRepeat : Prop :=
  (∀ (i : Instr) (s t : State), (∃ idx, i = .rdH idx ∨ i = .rdM idx ∨ i = .rdK idx) ∨ i = .rdStatus → i.wf = true →
    exec i s = .next t → t = { s with host := t.host, replies := t.replies }) ∧
  (∀ (i : Instr) (s t : State) (x : Word), (∃ idx, i = .rdH idx ∨ i = .rdM idx ∨ i = .rdK idx) ∨ i = .rdStatus →
    i.wf = true → exec i s = .next t → t.replies = s.replies ++ [x] →
    ∃ u, exec i t = .next u ∧ u.replies = t.replies ++ [x]) ∧
  (∀ (i : Instr) (s t : State), (∃ idx x, i = .wrH idx x ∨ i = .wrM idx x) ∨ i = .clrErr → i.wf = true →
    exec i s = .next t → ∃ u, exec i t = .next u ∧ u = { t with host := u.host, replies := u.replies })

/-- A command faults exactly on the reads of R232 (RD_H or RD_M of an unwritten element, START with an unwritten input),
and no command is refused. -/
def Obligations.FaultsAreUnwrittenReads : Prop :=
  (∀ (i : Instr) (s : State), (∃ r, exec i s = .fault r) ↔
    s.busy = false ∧
      ((∃ (idx : Idx) (k : Fin 8), i = .rdH idx ∧ idx.toNat = k.val ∧ s.hWritten[k] = false) ∨
       (∃ (idx : Idx) (j : Fin 16), i = .rdM idx ∧ idx.toNat = j.val ∧ s.mWritten[j] = false) ∨
       (i = .start ∧ ((∃ k : Fin 8, s.hWritten[k] = false) ∨ ∃ j : Fin 16, s.mWritten[j] = false)))) ∧
  (∀ (i : Instr) (s : State) (r : Refusal), exec i s ≠ .refused r)

/-- An illegal word and a core step touch disjoint state, so their order does not matter (R207). -/
def Obligations.IllegalCommandCommutesWithCoreStep : Prop :=
  ∀ (s t : State) (c : IllegalCause), coreStep s = .next t →
    coreStep (s.raiseIllegalCommand c) = .next (t.raiseIllegalCommand c)

/-- Only reset makes an element unwritten (R232): in every other step what is written stays written. -/
def Obligations.WrittenStaysWritten : Prop :=
  ∀ s t : State, (∀ ts, s.turns ≠ .rst :: ts) → step s = .next t →
    (∀ k : Fin 8, s.hWritten[k] = true → t.hWritten[k] = true) ∧
    (∀ j : Fin 16, s.mWritten[j] = true → t.mWritten[j] = true)

/-! ## Reset and platform -/

/-- What the spec gives after reset (R231): IDLE, DONE, ERR, CAUSE and STATUS 0, every element of H and M unwritten. -/
def Obligations.ResetValues : Prop :=
  State.reset.phase = .idle ∧ State.reset.busy = false ∧ State.reset.done = false ∧ State.reset.err = false ∧
  State.reset.cause = 0 ∧ State.reset.status = 0 ∧
  (∀ k : Fin 8, State.reset.hWritten[k] = false) ∧ (∀ j : Fin 16, State.reset.mWritten[j] = false)

/-- A cycle with `rst` = 1 has priority in every phase (R207, R230): every register of CORE is as after reset, a compression
is abandoned (R233), and no command is accepted. That HOST's transactions stay is the model's reading (assumption log 11). -/
def Obligations.ResetHasPriority : Prop :=
  ∀ (s : State) (ts : List Turn), s.turns = .rst :: ts →
    ∃ t, step s = .next t ∧ t.phase = .idle ∧ t.done = false ∧ t.err = false ∧ t.cause = 0 ∧ t.status = 0 ∧
      (∀ k : Fin 8, t.hWritten[k] = false) ∧ (∀ j : Fin 16, t.mWritten[j] = false) ∧
      t.host = s.host ∧ t.replies = s.replies ∧ t.turns = ts ∧ t.draws = s.draws

/-- Instances share no mutable state (R56): a step of one leaves every other alone, also where it stops, and steps of two
instances commute. With a choice listed, a running instance's step is `step` of its own state. That a stop ends one instance's
run alone is the model's choice (assumption log 20). -/
def Obligations.InstancesAreIndependent : Prop :=
  (∀ (p : Platform) (i j : Nat), i ≠ j → (stepInstance i p)[j]? = p[j]?) ∧
  (∀ (p : Platform) (i j : Nat), i ≠ j → stepInstance j (stepInstance i p) = stepInstance i (stepInstance j p)) ∧
  (∀ (p : Platform) (k : Nat) (s : State), p[k]? = some (.running s) → s.turns ≠ [] →
    (∀ t, step s = .next t → (stepInstance k p)[k]? = some (.running t)) ∧
    (∀ r, step s = .fault r → (stepInstance k p)[k]? = some (.faulted r)))
end

