-- ==== Sys2Proof/Laws/State.lean ====
section
/-! SUPPORT. What each field is after each update of the state: one lemma per field per update, true by
rfl. -/

namespace Sys2Proof.Machine

@[simp] theorem State.hold_eq (s : State) : s.hold = s := rfl

theorem State.raiseIllegalCommand_eq (c : IllegalCause) (s : State) :
    s.raiseIllegalCommand c = (s.recordIllegal c).accept 0 := rfl

@[simp] theorem State.accept_h (x : Word) (s : State) : (s.accept x).h = s.h := rfl
@[simp] theorem State.accept_hWritten (x : Word) (s : State) : (s.accept x).hWritten = s.hWritten := rfl
@[simp] theorem State.accept_m (x : Word) (s : State) : (s.accept x).m = s.m := rfl
@[simp] theorem State.accept_mWritten (x : Word) (s : State) : (s.accept x).mWritten = s.mWritten := rfl
@[simp] theorem State.accept_w (x : Word) (s : State) : (s.accept x).w = s.w := rfl
@[simp] theorem State.accept_v (x : Word) (s : State) : (s.accept x).v = s.v := rfl
@[simp] theorem State.accept_rnd (x : Word) (s : State) : (s.accept x).rnd = s.rnd := rfl
@[simp] theorem State.accept_phase (x : Word) (s : State) : (s.accept x).phase = s.phase := rfl
@[simp] theorem State.accept_done (x : Word) (s : State) : (s.accept x).done = s.done := rfl
@[simp] theorem State.accept_err (x : Word) (s : State) : (s.accept x).err = s.err := rfl
@[simp] theorem State.accept_cause (x : Word) (s : State) : (s.accept x).cause = s.cause := rfl
@[simp] theorem State.accept_host (x : Word) (s : State) : (s.accept x).host = s.host.tail := rfl
@[simp] theorem State.accept_replies (x : Word) (s : State) : (s.accept x).replies = s.replies ++ [x] := rfl
@[simp] theorem State.accept_turns (x : Word) (s : State) : (s.accept x).turns = s.turns := rfl
@[simp] theorem State.accept_draws (x : Word) (s : State) : (s.accept x).draws = s.draws := rfl

@[simp] theorem State.writeH_h (k : Fin 8) (x : Word) (s : State) : (s.writeH k x).h = s.h.set k.val x := rfl
@[simp] theorem State.writeH_hWritten (k : Fin 8) (x : Word) (s : State) :
    (s.writeH k x).hWritten = s.hWritten.set k.val true := rfl
@[simp] theorem State.writeH_m (k : Fin 8) (x : Word) (s : State) : (s.writeH k x).m = s.m := rfl
@[simp] theorem State.writeH_mWritten (k : Fin 8) (x : Word) (s : State) : (s.writeH k x).mWritten = s.mWritten := rfl
@[simp] theorem State.writeH_w (k : Fin 8) (x : Word) (s : State) : (s.writeH k x).w = s.w := rfl
@[simp] theorem State.writeH_v (k : Fin 8) (x : Word) (s : State) : (s.writeH k x).v = s.v := rfl
@[simp] theorem State.writeH_rnd (k : Fin 8) (x : Word) (s : State) : (s.writeH k x).rnd = s.rnd := rfl
@[simp] theorem State.writeH_phase (k : Fin 8) (x : Word) (s : State) : (s.writeH k x).phase = s.phase := rfl
@[simp] theorem State.writeH_done (k : Fin 8) (x : Word) (s : State) : (s.writeH k x).done = s.done := rfl
@[simp] theorem State.writeH_err (k : Fin 8) (x : Word) (s : State) : (s.writeH k x).err = s.err := rfl
@[simp] theorem State.writeH_cause (k : Fin 8) (x : Word) (s : State) : (s.writeH k x).cause = s.cause := rfl
@[simp] theorem State.writeH_host (k : Fin 8) (x : Word) (s : State) : (s.writeH k x).host = s.host := rfl
@[simp] theorem State.writeH_replies (k : Fin 8) (x : Word) (s : State) : (s.writeH k x).replies = s.replies := rfl
@[simp] theorem State.writeH_turns (k : Fin 8) (x : Word) (s : State) : (s.writeH k x).turns = s.turns := rfl
@[simp] theorem State.writeH_draws (k : Fin 8) (x : Word) (s : State) : (s.writeH k x).draws = s.draws := rfl

@[simp] theorem State.writeM_h (j : Fin 16) (x : Word) (s : State) : (s.writeM j x).h = s.h := rfl
@[simp] theorem State.writeM_hWritten (j : Fin 16) (x : Word) (s : State) :
    (s.writeM j x).hWritten = s.hWritten := rfl
@[simp] theorem State.writeM_m (j : Fin 16) (x : Word) (s : State) : (s.writeM j x).m = s.m.set j.val x := rfl
@[simp] theorem State.writeM_mWritten (j : Fin 16) (x : Word) (s : State) :
    (s.writeM j x).mWritten = s.mWritten.set j.val true := rfl
@[simp] theorem State.writeM_w (j : Fin 16) (x : Word) (s : State) : (s.writeM j x).w = s.w := rfl
@[simp] theorem State.writeM_v (j : Fin 16) (x : Word) (s : State) : (s.writeM j x).v = s.v := rfl
@[simp] theorem State.writeM_rnd (j : Fin 16) (x : Word) (s : State) : (s.writeM j x).rnd = s.rnd := rfl
@[simp] theorem State.writeM_phase (j : Fin 16) (x : Word) (s : State) : (s.writeM j x).phase = s.phase := rfl
@[simp] theorem State.writeM_done (j : Fin 16) (x : Word) (s : State) : (s.writeM j x).done = s.done := rfl
@[simp] theorem State.writeM_err (j : Fin 16) (x : Word) (s : State) : (s.writeM j x).err = s.err := rfl
@[simp] theorem State.writeM_cause (j : Fin 16) (x : Word) (s : State) : (s.writeM j x).cause = s.cause := rfl
@[simp] theorem State.writeM_host (j : Fin 16) (x : Word) (s : State) : (s.writeM j x).host = s.host := rfl
@[simp] theorem State.writeM_replies (j : Fin 16) (x : Word) (s : State) : (s.writeM j x).replies = s.replies := rfl
@[simp] theorem State.writeM_turns (j : Fin 16) (x : Word) (s : State) : (s.writeM j x).turns = s.turns := rfl
@[simp] theorem State.writeM_draws (j : Fin 16) (x : Word) (s : State) : (s.writeM j x).draws = s.draws := rfl

@[simp] theorem State.recordIllegal_h (c : IllegalCause) (s : State) : (s.recordIllegal c).h = s.h := rfl
@[simp] theorem State.recordIllegal_hWritten (c : IllegalCause) (s : State) :
    (s.recordIllegal c).hWritten = s.hWritten := rfl
@[simp] theorem State.recordIllegal_m (c : IllegalCause) (s : State) : (s.recordIllegal c).m = s.m := rfl
@[simp] theorem State.recordIllegal_mWritten (c : IllegalCause) (s : State) :
    (s.recordIllegal c).mWritten = s.mWritten := rfl
@[simp] theorem State.recordIllegal_w (c : IllegalCause) (s : State) : (s.recordIllegal c).w = s.w := rfl
@[simp] theorem State.recordIllegal_v (c : IllegalCause) (s : State) : (s.recordIllegal c).v = s.v := rfl
@[simp] theorem State.recordIllegal_rnd (c : IllegalCause) (s : State) : (s.recordIllegal c).rnd = s.rnd := rfl
@[simp] theorem State.recordIllegal_phase (c : IllegalCause) (s : State) : (s.recordIllegal c).phase = s.phase := rfl
@[simp] theorem State.recordIllegal_done (c : IllegalCause) (s : State) : (s.recordIllegal c).done = s.done := rfl
@[simp] theorem State.recordIllegal_err (c : IllegalCause) (s : State) : (s.recordIllegal c).err = true := rfl
@[simp] theorem State.recordIllegal_cause (c : IllegalCause) (s : State) :
    (s.recordIllegal c).cause = if s.err then s.cause else causeCode c := rfl
@[simp] theorem State.recordIllegal_host (c : IllegalCause) (s : State) : (s.recordIllegal c).host = s.host := rfl
@[simp] theorem State.recordIllegal_replies (c : IllegalCause) (s : State) :
    (s.recordIllegal c).replies = s.replies := rfl
@[simp] theorem State.recordIllegal_turns (c : IllegalCause) (s : State) : (s.recordIllegal c).turns = s.turns := rfl
@[simp] theorem State.recordIllegal_draws (c : IllegalCause) (s : State) : (s.recordIllegal c).draws = s.draws := rfl

@[simp] theorem State.clearErr_h (s : State) : s.clearErr.h = s.h := rfl
@[simp] theorem State.clearErr_hWritten (s : State) : s.clearErr.hWritten = s.hWritten := rfl
@[simp] theorem State.clearErr_m (s : State) : s.clearErr.m = s.m := rfl
@[simp] theorem State.clearErr_mWritten (s : State) : s.clearErr.mWritten = s.mWritten := rfl
@[simp] theorem State.clearErr_w (s : State) : s.clearErr.w = s.w := rfl
@[simp] theorem State.clearErr_v (s : State) : s.clearErr.v = s.v := rfl
@[simp] theorem State.clearErr_rnd (s : State) : s.clearErr.rnd = s.rnd := rfl
@[simp] theorem State.clearErr_phase (s : State) : s.clearErr.phase = s.phase := rfl
@[simp] theorem State.clearErr_done (s : State) : s.clearErr.done = s.done := rfl
@[simp] theorem State.clearErr_err (s : State) : s.clearErr.err = false := rfl
@[simp] theorem State.clearErr_cause (s : State) : s.clearErr.cause = 0 := rfl
@[simp] theorem State.clearErr_host (s : State) : s.clearErr.host = s.host := rfl
@[simp] theorem State.clearErr_replies (s : State) : s.clearErr.replies = s.replies := rfl
@[simp] theorem State.clearErr_turns (s : State) : s.clearErr.turns = s.turns := rfl
@[simp] theorem State.clearErr_draws (s : State) : s.clearErr.draws = s.draws := rfl

@[simp] theorem State.init_h (s : State) : s.init.h = s.h := rfl
@[simp] theorem State.init_hWritten (s : State) : s.init.hWritten = s.hWritten := rfl
@[simp] theorem State.init_m (s : State) : s.init.m = s.m := rfl
@[simp] theorem State.init_mWritten (s : State) : s.init.mWritten = s.mWritten := rfl
@[simp] theorem State.init_w (s : State) : s.init.w = loadw s.m s.w := rfl
@[simp] theorem State.init_v (s : State) : s.init.v = s.h := rfl
@[simp] theorem State.init_rnd (s : State) : s.init.rnd = 0 := rfl
@[simp] theorem State.init_phase (s : State) : s.init.phase = .round := rfl
@[simp] theorem State.init_done (s : State) : s.init.done = false := rfl
@[simp] theorem State.init_err (s : State) : s.init.err = s.err := rfl
@[simp] theorem State.init_cause (s : State) : s.init.cause = s.cause := rfl
@[simp] theorem State.init_host (s : State) : s.init.host = s.host := rfl
@[simp] theorem State.init_replies (s : State) : s.init.replies = s.replies := rfl
@[simp] theorem State.init_turns (s : State) : s.init.turns = s.turns := rfl
@[simp] theorem State.init_draws (s : State) : s.init.draws = s.draws := rfl

@[simp] theorem State.foldStep_h (s : State) : s.foldStep.h = foldWords s.h s.v := rfl
@[simp] theorem State.foldStep_hWritten (s : State) : s.foldStep.hWritten = s.hWritten := rfl
@[simp] theorem State.foldStep_m (s : State) : s.foldStep.m = s.m := rfl
@[simp] theorem State.foldStep_mWritten (s : State) : s.foldStep.mWritten = s.mWritten := rfl
@[simp] theorem State.foldStep_w (s : State) : s.foldStep.w = s.w := rfl
@[simp] theorem State.foldStep_v (s : State) : s.foldStep.v = s.v := rfl
@[simp] theorem State.foldStep_rnd (s : State) : s.foldStep.rnd = s.rnd := rfl
@[simp] theorem State.foldStep_phase (s : State) : s.foldStep.phase = .idle := rfl
@[simp] theorem State.foldStep_done (s : State) : s.foldStep.done = true := rfl
@[simp] theorem State.foldStep_err (s : State) : s.foldStep.err = s.err := rfl
@[simp] theorem State.foldStep_cause (s : State) : s.foldStep.cause = s.cause := rfl
@[simp] theorem State.foldStep_host (s : State) : s.foldStep.host = s.host := rfl
@[simp] theorem State.foldStep_replies (s : State) : s.foldStep.replies = s.replies := rfl
@[simp] theorem State.foldStep_turns (s : State) : s.foldStep.turns = s.turns := rfl
@[simp] theorem State.foldStep_draws (s : State) : s.foldStep.draws = s.draws := rfl

@[simp] theorem State.roundStep_h (s : State) (hr : s.rnd.val < 64) : (s.roundStep hr).h = s.h := rfl
@[simp] theorem State.roundStep_hWritten (s : State) (hr : s.rnd.val < 64) :
    (s.roundStep hr).hWritten = s.hWritten := rfl
@[simp] theorem State.roundStep_m (s : State) (hr : s.rnd.val < 64) : (s.roundStep hr).m = s.m := rfl
@[simp] theorem State.roundStep_mWritten (s : State) (hr : s.rnd.val < 64) :
    (s.roundStep hr).mWritten = s.mWritten := rfl
@[simp] theorem State.roundStep_w (s : State) (hr : s.rnd.val < 64) :
    (s.roundStep hr).w = scheduleAt s.rnd.val s.w := rfl
@[simp] theorem State.roundStep_v (s : State) (hr : s.rnd.val < 64) :
    (s.roundStep hr).v = roundVars s.rnd.val romK[s.rnd.val] (scheduleAt s.rnd.val s.w)[s.rnd.val] s.v := rfl
@[simp] theorem State.roundStep_rnd (s : State) (hr : s.rnd.val < 64) :
    (s.roundStep hr).rnd = ⟨s.rnd.val + 1, by omega⟩ := rfl
@[simp] theorem State.roundStep_phase (s : State) (hr : s.rnd.val < 64) :
    (s.roundStep hr).phase = if s.rnd.val = 63 then .fold else .round := rfl
@[simp] theorem State.roundStep_done (s : State) (hr : s.rnd.val < 64) : (s.roundStep hr).done = s.done := rfl
@[simp] theorem State.roundStep_err (s : State) (hr : s.rnd.val < 64) : (s.roundStep hr).err = s.err := rfl
@[simp] theorem State.roundStep_cause (s : State) (hr : s.rnd.val < 64) : (s.roundStep hr).cause = s.cause := rfl
@[simp] theorem State.roundStep_host (s : State) (hr : s.rnd.val < 64) : (s.roundStep hr).host = s.host := rfl
@[simp] theorem State.roundStep_replies (s : State) (hr : s.rnd.val < 64) :
    (s.roundStep hr).replies = s.replies := rfl
@[simp] theorem State.roundStep_turns (s : State) (hr : s.rnd.val < 64) : (s.roundStep hr).turns = s.turns := rfl
@[simp] theorem State.roundStep_draws (s : State) (hr : s.rnd.val < 64) : (s.roundStep hr).draws = s.draws := rfl

@[simp] theorem State.resetCore_h (s : State) : s.resetCore.h = State.reset.h := rfl
@[simp] theorem State.resetCore_hWritten (s : State) : s.resetCore.hWritten = State.reset.hWritten := rfl
@[simp] theorem State.resetCore_m (s : State) : s.resetCore.m = State.reset.m := rfl
@[simp] theorem State.resetCore_mWritten (s : State) : s.resetCore.mWritten = State.reset.mWritten := rfl
@[simp] theorem State.resetCore_w (s : State) : s.resetCore.w = State.reset.w := rfl
@[simp] theorem State.resetCore_v (s : State) : s.resetCore.v = State.reset.v := rfl
@[simp] theorem State.resetCore_rnd (s : State) : s.resetCore.rnd = State.reset.rnd := rfl
@[simp] theorem State.resetCore_phase (s : State) : s.resetCore.phase = State.reset.phase := rfl
@[simp] theorem State.resetCore_done (s : State) : s.resetCore.done = State.reset.done := rfl
@[simp] theorem State.resetCore_err (s : State) : s.resetCore.err = State.reset.err := rfl
@[simp] theorem State.resetCore_cause (s : State) : s.resetCore.cause = State.reset.cause := rfl
@[simp] theorem State.resetCore_host (s : State) : s.resetCore.host = s.host := rfl
@[simp] theorem State.resetCore_replies (s : State) : s.resetCore.replies = s.replies := rfl
@[simp] theorem State.resetCore_turns (s : State) : s.resetCore.turns = s.turns := rfl
@[simp] theorem State.resetCore_draws (s : State) : s.resetCore.draws = s.draws := rfl

@[simp] theorem State.reset_phase : State.reset.phase = .idle := rfl
@[simp] theorem State.reset_err : State.reset.err = false := rfl
@[simp] theorem State.reset_cause : State.reset.cause = 0 := rfl
@[simp] theorem State.reset_done : State.reset.done = false := rfl

/-- BUSY reads the phase alone (R155). -/
theorem State.busy_eq_false_iff {s : State} : s.busy = false ↔ s.phase = .idle := by
  unfold State.busy; cases s.phase <;> simp

theorem State.busy_eq_true_iff {s : State} : s.busy = true ↔ s.phase = .round ∨ s.phase = .fold := by
  unfold State.busy; cases s.phase <;> simp

/-- Two states in one phase agree on BUSY. -/
theorem State.busy_congr {s t : State} (h : s.phase = t.phase) : s.busy = t.busy := by
  unfold State.busy; rw [h]

@[simp] theorem State.accept_busy (x : Word) (s : State) : (s.accept x).busy = s.busy := rfl
@[simp] theorem State.writeH_busy (k : Fin 8) (x : Word) (s : State) : (s.writeH k x).busy = s.busy := rfl
@[simp] theorem State.writeM_busy (j : Fin 16) (x : Word) (s : State) : (s.writeM j x).busy = s.busy := rfl
@[simp] theorem State.recordIllegal_busy (c : IllegalCause) (s : State) : (s.recordIllegal c).busy = s.busy := rfl
@[simp] theorem State.clearErr_busy (s : State) : s.clearErr.busy = s.busy := rfl
@[simp] theorem State.init_busy (s : State) : s.init.busy = true := rfl
@[simp] theorem State.foldStep_busy (s : State) : s.foldStep.busy = false := rfl
@[simp] theorem State.resetCore_busy (s : State) : s.resetCore.busy = false := rfl
@[simp] theorem State.roundStep_busy (s : State) (hr : s.rnd.val < 64) : (s.roundStep hr).busy = true := by
  rw [State.busy_eq_true_iff, State.roundStep_phase]
  by_cases h : s.rnd.val = 63 <;> simp [h]

end Sys2Proof.Machine
end

