-- ==== Sys2Proof/Laws/Commands.lean ====
section
/-! SUPPORT. What each shared operation, each command and each step of an agent can do, said once. -/

namespace Sys2Proof.Machine

variable {s t : State} {i : Instr}

/-- Nothing is unwritten exactly when all 24 inputs are written. -/
theorem State.firstUnwritten_eq_none_iff : s.firstUnwritten = none ↔ s.allWritten := by
  simp [State.firstUnwritten, State.allWritten, List.find?_eq_none]

/-- The element a fault names is unwritten. -/
theorem State.firstUnwritten_unwritten {r : Reg} (h : s.firstUnwritten = some r) :
    (∃ k : Fin 8, r = .h k ∧ s.hWritten[k.val] = false) ∨ (∃ j : Fin 16, r = .m j ∧ s.mWritten[j.val] = false) := by
  unfold State.firstUnwritten at h
  cases hk : (List.finRange 8).find? fun k => !s.hWritten[k.val] with
  | some k =>
    have hp := List.find?_some hk
    simp [hk] at h
    exact .inl ⟨k, h.symm, by simpa using hp⟩
  | none =>
    cases hj : (List.finRange 16).find? fun j => !s.mWritten[j.val] with
    | some j =>
      have hp := List.find?_some hj
      simp [hk, hj] at h
      exact .inr ⟨j, h.symm, by simpa using hp⟩
    | none => simp [hk, hj] at h

theorem hIndex_of_lt {idx : Idx} (h : idx.toNat < 8) : hIndex idx = some ⟨idx.toNat, h⟩ := by simp [hIndex, h]
theorem hIndex_of_ge {idx : Idx} (h : 8 ≤ idx.toNat) : hIndex idx = none := by simp [hIndex, h]
theorem mIndex_of_lt {idx : Idx} (h : idx.toNat < 16) : mIndex idx = some ⟨idx.toNat, h⟩ := by simp [mIndex, h]
theorem mIndex_of_ge {idx : Idx} (h : 16 ≤ idx.toNat) : mIndex idx = none := by simp [mIndex, h]

/-- Everything a command can do when it answers a next state: it is held, or it is the illegal word of a bad index, or it is
accepted with one of the effects of R172 to R180. -/
theorem exec_cases (h : exec i s = .next t) :
    (s.busy = true ∧ heldCommand i = true ∧ t = s) ∨
    (i.wf = false ∧ t = s.raiseIllegalCommand .badIndex) ∨
    (∃ x, t = s.accept x) ∨
    (∃ idx x k, i = .wrH idx x ∧ hIndex idx = some k ∧ s.busy = false ∧ t = (s.writeH k x).accept 0) ∨
    (∃ idx x j, i = .wrM idx x ∧ mIndex idx = some j ∧ s.busy = false ∧ t = (s.writeM j x).accept 0) ∨
    (i = .start ∧ s.busy = false ∧ s.allWritten ∧ t = s.init.accept 0) ∨
    (i = .clrErr ∧ t = s.clearErr.accept 0) := by
  cases i with
  | nop => simp only [exec, execNop, Host.Outcome.next.injEq] at h; exact .inr (.inr (.inl ⟨0, h.symm⟩))
  | rdK idx => simp only [exec, execRdK, Host.Outcome.next.injEq] at h; exact .inr (.inr (.inl ⟨_, h.symm⟩))
  | rdStatus => simp only [exec, execRdStatus, Host.Outcome.next.injEq] at h; exact .inr (.inr (.inl ⟨_, h.symm⟩))
  | clrErr =>
    simp only [exec, execClrErr, Host.Outcome.next.injEq] at h
    exact .inr (.inr (.inr (.inr (.inr (.inr ⟨rfl, h.symm⟩)))))
  | start =>
    simp only [exec, execStart] at h
    split at h
    · rename_i hb; simp only [State.hold_eq, Host.Outcome.next.injEq] at h; exact .inl ⟨hb, rfl, h.symm⟩
    · rename_i hb
      split at h
      · cases h
      · rename_i hn
        simp only [Host.Outcome.next.injEq] at h
        exact .inr (.inr (.inr (.inr (.inr (.inl
          ⟨rfl, by simpa using hb, State.firstUnwritten_eq_none_iff.mp hn, h.symm⟩)))))
  | wrH idx x =>
    simp only [exec, execWrH] at h
    split at h
    · rename_i hk
      simp only [Host.Outcome.next.injEq] at h
      exact .inr (.inl ⟨by simp [hIndex] at hk; simp [Instr.wf]; omega, h.symm⟩)
    · rename_i k hk
      split at h
      · rename_i hb; simp only [State.hold_eq, Host.Outcome.next.injEq] at h; exact .inl ⟨hb, rfl, h.symm⟩
      · rename_i hb
        simp only [Host.Outcome.next.injEq] at h
        exact .inr (.inr (.inr (.inl ⟨idx, x, k, rfl, hk, by simpa using hb, h.symm⟩)))
  | wrM idx x =>
    simp only [exec, execWrM] at h
    split at h
    · rename_i hk
      simp only [Host.Outcome.next.injEq] at h
      exact .inr (.inl ⟨by simp [mIndex] at hk; simp [Instr.wf]; omega, h.symm⟩)
    · rename_i j hj
      split at h
      · rename_i hb; simp only [State.hold_eq, Host.Outcome.next.injEq] at h; exact .inl ⟨hb, rfl, h.symm⟩
      · rename_i hb
        simp only [Host.Outcome.next.injEq] at h
        exact .inr (.inr (.inr (.inr (.inl ⟨idx, x, j, rfl, hj, by simpa using hb, h.symm⟩))))
  | rdH idx =>
    simp only [exec, execRdH] at h
    split at h
    · rename_i hk
      simp only [Host.Outcome.next.injEq] at h
      exact .inr (.inl ⟨by simp [hIndex] at hk; simp [Instr.wf]; omega, h.symm⟩)
    · split at h
      · rename_i hb; simp only [State.hold_eq, Host.Outcome.next.injEq] at h; exact .inl ⟨hb, rfl, h.symm⟩
      · split at h
        · simp only [Host.Outcome.next.injEq] at h; exact .inr (.inr (.inl ⟨_, h.symm⟩))
        · cases h
  | rdM idx =>
    simp only [exec, execRdM] at h
    split at h
    · rename_i hk
      simp only [Host.Outcome.next.injEq] at h
      exact .inr (.inl ⟨by simp [mIndex] at hk; simp [Instr.wf]; omega, h.symm⟩)
    · split at h
      · rename_i hb; simp only [State.hold_eq, Host.Outcome.next.injEq] at h; exact .inl ⟨hb, rfl, h.symm⟩
      · split at h
        · simp only [Host.Outcome.next.injEq] at h; exact .inr (.inr (.inl ⟨_, h.symm⟩))
        · cases h

/-- Everything a core step can do when it answers a next state (R152 to R154). -/
theorem coreStep_cases (h : coreStep s = .next t) :
    (s.phase = .idle ∧ t = s) ∨ (s.phase = .round ∧ ∃ hr : s.rnd.val < 64, t = s.roundStep hr) ∨
    (s.phase = .fold ∧ t = s.foldStep) := by
  unfold coreStep at h
  split at h
  · rename_i hp; simp only [Host.Outcome.next.injEq] at h; exact .inl ⟨hp, h.symm⟩
  · rename_i hp
    split at h
    · rename_i hr; simp only [Host.Outcome.next.injEq] at h; exact .inr (.inl ⟨hp, hr, h.symm⟩)
    · cases h
  · rename_i hp; simp only [Host.Outcome.next.injEq] at h; exact .inr (.inr ⟨hp, h.symm⟩)

/-- Everything a host step can do: nothing where no transaction is presented, else the illegal word's exception or the
decoded command (R170). -/
theorem hostStep_cases (h : hostStep s = .next t) :
    (s.host = [] ∧ t = s) ∨
    (∃ x rest c, s.host = x :: rest ∧ decode x = .illegal c ∧ t = s.raiseIllegalCommand c) ∨
    (∃ x rest i, s.host = x :: rest ∧ decode x = .legal i ∧ exec i s = .next t) := by
  unfold hostStep at h
  split at h
  · rename_i hh; simp only [Host.Outcome.next.injEq] at h; exact .inl ⟨hh, h.symm⟩
  · rename_i x rest hh
    split at h
    · rename_i c hc; simp only [Host.Outcome.next.injEq] at h; exact .inr (.inl ⟨x, rest, c, hh, hc, h.symm⟩)
    · rename_i i hi; exact .inr (.inr ⟨x, rest, i, hh, hi, h⟩)

/-- A move is a host step or a core step of the same state. -/
theorem moveFirst_cases (a : Agent) (s : State) : moveFirst a s = hostStep s ∨ moveFirst a s = coreStep s := by
  cases a <;> simp only [moveFirst] <;> split <;> simp

end Sys2Proof.Machine
end

