-- ==== Sys2Proof/Laws/Decode.lean ====
section
/-! SUPPORT. The fields of an encoded command word. -/

namespace Sys2Proof

@[simp] theorem opField_cmdWord (op : BitVec 4) (idx : Idx) : opField (cmdWord op idx) = op := by
  revert op idx; decide +kernel

@[simp] theorem rsvdField_cmdWord (op : BitVec 4) (idx : Idx) : rsvdField (cmdWord op idx) = 0 := by
  revert op idx; decide +kernel

@[simp] theorem idxField_cmdWord (op : BitVec 4) (idx : Idx) : idxField (cmdWord op idx) = idx := by
  revert op idx; decide +kernel

/-- A word is its three fields (R61). -/
theorem cmd_eq_fields (c : Cmd) : c = opField c ++ rsvdField c ++ idxField c := by
  ext i hi
  simp only [opField, rsvdField, idxField, ← BitVec.getLsbD_eq_getElem, BitVec.getLsbD_append,
    BitVec.getLsbD_extractLsb']
  by_cases h6 : i < 6
  · simp [h6]
  · by_cases h12 : i - 6 < 6
    · simp [h6, h12, show 6 + (i - 6) = i by omega]
    · simp [h6, h12, show 12 + (i - 6 - 6) = i by omega, show i - 6 - 6 < 4 by omega]

/-- A word whose reserved bits are 0 is the word of its opcode and index (R63). -/
theorem cmd_eq_cmdWord (c : Cmd) (h : rsvdField c = 0) : c = cmdWord (opField c) (idxField c) := by
  have h' := cmd_eq_fields c
  rwa [h] at h'

/-- A reserved opcode is cause 1, whatever the rest of the word (R69). -/
theorem decode_reservedOp {t : Txn} (h : 9 ≤ (opField t.cmd).toNat) : decode t = .illegal .reservedOp := by
  simp [decode, h]

/-- Reserved bits that are not 0 are cause 2 where the opcode is not reserved (R69). -/
theorem decode_reservedBits {t : Txn} (h : (opField t.cmd).toNat ≤ 8) (hr : rsvdField t.cmd ≠ 0) :
    decode t = .illegal .reservedBits := by
  unfold decode
  rw [if_neg (by omega), if_pos hr]

/-- With both tests passed the opcode and the index decide (R72). -/
theorem decode_fields {t : Txn} (h : (opField t.cmd).toNat ≤ 8) (hr : rsvdField t.cmd = 0) :
    decode t = decodeOp (opField t.cmd).toNat (idxField t.cmd) t.wdata := by
  simp [decode, show ¬ 9 ≤ (opField t.cmd).toNat by omega, hr]

theorem decode_cmdWord (op : BitVec 4) (idx : Idx) (v : Word) (h : op.toNat ≤ 8) :
    decode ⟨cmdWord op idx, v⟩ = decodeOp op.toNat idx v := by
  rw [decode_fields] <;> simp [h]

/-- What a command decoded from an opcode and an index is: well formed, of that opcode and index, with the write data where
it has any. -/
theorem decodeOp_legal {op : Nat} {idx : Idx} {v : Word} {i : Instr} (h : decodeOp op idx v = .legal i) :
    i.wf = true ∧ i.op.toNat = op ∧ i.index = idx ∧ (i.wdata = v ∨ op ≠ 1 ∧ op ≠ 2) := by
  unfold decodeOp at h
  split at h <;> (try unfold ranged at h) <;> (try split at h) <;> cases h <;>
    simp_all [Instr.wf, Instr.op, Instr.index, Instr.wdata, ← BitVec.toNat_inj]

/-- What a decoded command says of the word it came from. -/
theorem decode_legal {t : Txn} {i : Instr} (h : decode t = .legal i) :
    (opField t.cmd).toNat ≤ 8 ∧ rsvdField t.cmd = 0 ∧ decodeOp (opField t.cmd).toNat (idxField t.cmd) t.wdata = .legal i := by
  by_cases h9 : (opField t.cmd).toNat ≤ 8
  · by_cases hr : rsvdField t.cmd = 0
    · exact ⟨h9, hr, by rw [← decode_fields h9 hr]; exact h⟩
    · rw [decode_reservedBits h9 hr] at h; cases h
  · rw [decode_reservedOp (by omega)] at h; cases h

end Sys2Proof
end

