-- ==== Sys2Proof/Laws/Operators.lean ====
section
/-! SUPPORT. The ROM and the operators in the terms proofs use: K by its place in the table, add32 as additions of words, rotations and shifts bit by bit, and the
words and variables that SCHED(i) and ROUND(i) leave alone. -/

namespace Sys2Proof.Machine

/-- K[i] by its place in R121's table. -/
theorem romK_getElem (i : Nat) (h : i < 64) :
    romK[i] = (romRow ⟨i / 8, by omega⟩)[i % 8]'(Nat.mod_lt _ (by decide)) := by
  simp [romK]

/-- add32 is addition modulo 2^32 (R82), so it may be taken one word at a time. -/
theorem add32_cons (x : Word) (xs : List Word) : add32 (x :: xs) = x + add32 xs := by
  simp [add32, BitVec.ofNat_add]

@[simp] theorem add32_nil : add32 [] = 0 := rfl

theorem add32_toNat (xs : List Word) : (add32 xs).toNat = (xs.map BitVec.toNat).sum % 2 ^ 32 := by
  simp [add32]

/-- Bit b of a right rotation by n is bit (b + n) mod 32 (R80). -/
theorem rotr_getLsbD (x : Word) (n : Nat) (h : 1 ≤ n ∧ n ≤ 31) (b : Nat) (hb : b < 32) :
    (rotr x n h).getLsbD b = x.getLsbD ((b + n) % 32) := by
  simp only [rotr, BitVec.getLsbD_or, BitVec.getLsbD_ushiftRight, BitVec.getLsbD_shiftLeft]
  by_cases hc : b + n < 32
  · rw [Nat.mod_eq_of_lt hc, show n + b = b + n by omega]
    simp [show b < 32 - n by omega]
  · have he : (b + n) % 32 = b - (32 - n) := by omega
    rw [he, BitVec.getLsbD_of_ge x (n + b) (by omega)]
    simp [hb, show ¬ b < 32 - n by omega]

/-- The words LOADW has written so far, and the others. -/
theorem loadwUpTo_get (m : Vector Word 16) (w : Vector Word 64) (n : Nat) (hn : n ≤ 16) (j : Nat) (hj : j < 64) :
    (loadwUpTo m w n)[j] = if h : j < n then bswap32 m[j] else w[j] := by
  induction n with
  | zero => rfl
  | succ n ih =>
    simp only [loadwUpTo, show n < 16 by omega, dif_pos, Vector.getElem_set, ih (by omega)]
    by_cases e : n = j
    · subst e; simp
    · simp only [e, if_false, show (j < n + 1) = (j < n) from propext (by omega)]

/-- LOADW writes the first sixteen words. -/
theorem loadw_low (m : Vector Word 16) (w : Vector Word 64) (j : Nat) (h : j < 16) :
    (loadw m w)[j] = bswap32 m[j] := by
  unfold loadw
  rw [loadwUpTo_get m w 16 (Nat.le_refl _) j (by omega), dif_pos h]

/-- LOADW leaves the other words. -/
theorem loadw_high (m : Vector Word 16) (w : Vector Word 64) (j : Nat) (h : 16 ≤ j) (h' : j < 64) :
    (loadw m w)[j] = w[j] := by
  unfold loadw
  rw [loadwUpTo_get m w 16 (Nat.le_refl _) j h', dif_neg (by omega)]

/-- SCHED(i) leaves every other word. -/
theorem scheduleAt_other (i : Nat) (w : Vector Word 64) (j : Nat) (hj : j < 64) (hne : j ≠ i) :
    (scheduleAt i w)[j] = w[j] := by
  unfold scheduleAt
  split
  · exact Vector.getElem_set_ne _ _ (Ne.symm hne)
  · rfl

/-- SCHED(i) writes W[i]. -/
theorem scheduleAt_self (i : Nat) (w : Vector Word 64) (h : 16 ≤ i ∧ i < 64) :
    (scheduleAt i w)[i]'h.2 = schedWord i h w := by
  simp [scheduleAt, h]

/-- Below 16 the step schedules nothing. -/
theorem scheduleAt_low (i : Nat) (w : Vector Word 64) (h : i < 16) : scheduleAt i w = w := by
  unfold scheduleAt
  rw [dif_neg (by omega)]

/-- The word of SCHED(i) reads four words and no other (R104). -/
theorem schedWord_congr (i : Nat) (h : 16 ≤ i ∧ i < 64) (w w' : Vector Word 64)
    (h16 : w[i - 16] = w'[i - 16]) (h7 : w[i - 7] = w'[i - 7])
    (h15 : w[i - 15] = w'[i - 15]) (h2 : w[i - 2] = w'[i - 2]) : schedWord i h w = schedWord i h w' := by
  simp only [schedWord, h16, h7, h15, h2]

/-- The first sixteen words of Expand stay what LOADW made them. -/
theorem expandUpTo_low (m : Vector Word 16) (n j : Nat) (h : j < 16) : (expandUpTo m n)[j] = bswap32 m[j] := by
  induction n with
  | zero => exact loadw_low _ _ _ h
  | succ n ih =>
    show (scheduleAt n (expandUpTo m n))[j] = _
    by_cases h16 : n < 16
    · rw [scheduleAt_low _ _ h16, ih]
    · rw [scheduleAt_other _ _ _ (by omega) (by omega), ih]

/-- A word of Expand does not change once it is computed. -/
theorem expandUpTo_stable (m : Vector Word 16) (n k j : Nat) (hj : j < 64) (h : j < n ∨ j < 16) (hk : n ≤ k) :
    (expandUpTo m k)[j] = (expandUpTo m n)[j] := by
  induction k with
  | zero => obtain rfl : n = 0 := by omega
            rfl
  | succ k ih =>
    by_cases e : n = k + 1
    · subst e; rfl
    · rw [← ih (by omega)]
      show (scheduleAt k (expandUpTo m k))[j] = _
      by_cases hk16 : k < 16
      · rw [scheduleAt_low _ _ hk16]
      · exact scheduleAt_other _ _ _ _ (by omega)

/-- A word of Expand is already there once its step is done. -/
theorem expand_eq_upTo (m : Vector Word 16) (n j : Nat) (hj : j < 64) (h : j < n ∨ j < 16) (hn : n ≤ 64) :
    (expand m)[j] = (expandUpTo m n)[j] := by
  unfold expand
  exact expandUpTo_stable m n 64 j hj h hn

/-- The two variables a round writes are four apart (R125). -/
theorem binding_D_ne_H (i : Nat) : (binding .D i).val ≠ (binding .H i).val := by
  have key : ∀ x : Fin 8, (3 - x : Fin 8).val ≠ (7 - x : Fin 8).val := by decide
  exact key (Fin.ofNat 8 i)

/-- A round leaves every variable but those bound to D and H (R126). -/
theorem roundVars_other (i : Nat) (k w : Word) (v : Vector Word 8) (j : Nat) (hj : j < 8)
    (hD : j ≠ (binding .D i).val) (hH : j ≠ (binding .H i).val) : (roundVars i k w v)[j] = v[j] := by
  unfold roundVars
  rw [Vector.getElem_set_ne _ _ (Ne.symm hH), Vector.getElem_set_ne _ _ (Ne.symm hD)]

end Sys2Proof.Machine
end

