-- ==== Sys2Proof/Laws/PerInstr.lean ====
section
/-! SUPPORT. Facts about every command as syntax, one lemma per constructor: the fields of its encoded word. -/

/-- The encoded word holds the command's opcode, 0 in the reserved bits and its index (R61, R63, R64). -/
def Sys2Proof.Laws.EncodedFields.Statement (i : Sys2Proof.Instr) : Prop :=
  Sys2Proof.opField (Sys2Proof.encode i).cmd = i.op ∧ Sys2Proof.rsvdField (Sys2Proof.encode i).cmd = 0 ∧
    Sys2Proof.idxField (Sys2Proof.encode i).cmd = i.index

namespace Sys2Proof.Laws.EncodedFields

theorem nop : Statement .nop := by simp [Statement, encode]
theorem wrH (idx : Idx) (value : Word) : Statement (.wrH idx value) := by simp [Statement, encode]
theorem wrM (idx : Idx) (value : Word) : Statement (.wrM idx value) := by simp [Statement, encode]
theorem rdH (idx : Idx) : Statement (.rdH idx) := by simp [Statement, encode]
theorem rdM (idx : Idx) : Statement (.rdM idx) := by simp [Statement, encode]
theorem rdK (idx : Idx) : Statement (.rdK idx) := by simp [Statement, encode]
theorem start : Statement .start := by simp [Statement, encode]
theorem rdStatus : Statement .rdStatus := by simp [Statement, encode]
theorem clrErr : Statement .clrErr := by simp [Statement, encode]

end Sys2Proof.Laws.EncodedFields
end

