-- ==== Sys2Proof/Laws/Step.lean ====
section
/-! SUPPORT. What one step of the machine, and of one instance of a platform, can do, said once. -/

namespace Sys2Proof.Machine

/-- A step is a cycle with `rst` = 1, or a move of an agent on the state with its choice taken off (R160, R207). -/
theorem step_eq (s : State) :
    (∃ ts, s.turns = .rst :: ts ∧ step s = .next { s with turns := ts }.resetCore) ∨
    (∃ a ts, s.turns = .of a :: ts ∧ step s = moveFirst a { s with turns := ts }) ∨
    (s.turns = [] ∧ step s = moveFirst (Config.freeAgent s.draws) { s with draws := s.draws + 1 }) := by
  unfold step advance
  cases h : s.turns with
  | nil => exact .inr (.inr ⟨rfl, rfl⟩)
  | cons u ts =>
    cases u with
    | rst => exact .inl ⟨ts, rfl, rfl⟩
    | of a => exact .inr (.inl ⟨a, ts, rfl, rfl⟩)

/-- A step that answers a next state: a reset, or a host step or core step of a state that differs from this one in the
listed choices and the draws alone. -/
theorem step_cases {s t : State} (h : step s = .next t) :
    (∃ ts, s.turns = .rst :: ts ∧ t = { s with turns := ts }.resetCore) ∨
    (∃ ts d, hostStep { s with turns := ts, draws := d } = .next t) ∨
    (∃ ts d, coreStep { s with turns := ts, draws := d } = .next t) := by
  obtain ⟨ts, hu, he⟩ | ⟨a, ts, hu, he⟩ | ⟨hu, he⟩ := step_eq s
  · rw [he, Host.Outcome.next.injEq] at h; exact .inl ⟨ts, hu, h.symm⟩
  · rw [he] at h
    obtain hm | hm := moveFirst_cases a { s with turns := ts } <;> rw [hm] at h
    · exact .inr (.inl ⟨ts, s.draws, h⟩)
    · exact .inr (.inr ⟨ts, s.draws, h⟩)
  · rw [he] at h
    obtain hm | hm := moveFirst_cases (Config.freeAgent s.draws) { s with draws := s.draws + 1 } <;> rw [hm] at h
    · exact .inr (.inl ⟨s.turns, _, h⟩)
    · exact .inr (.inr ⟨s.turns, _, h⟩)

/-- A run of one more step, from its first step. -/
theorem run_succ_of_step {s v : State} (n : Nat) (h : step s = .next v) :
    Sys2Proof.core.run (n + 1) s = Sys2Proof.core.run n v := by
  have h' : Sys2Proof.core.step s = .next v := h
  simp only [Host.Core.run, h']

/-- A run of one more step, from its last step. -/
theorem run_succ_of_run (n : Nat) {s u : State} (h : Sys2Proof.core.run n s = .next u) :
    Sys2Proof.core.run (n + 1) s = step u := by
  induction n generalizing s with
  | zero =>
    obtain rfl : s = u := Host.Outcome.next.inj h
    cases hs : step s with
    | next v => exact run_succ_of_step 0 hs
    | fault r =>
      have h' : Sys2Proof.core.step s = .fault r := hs
      simp only [Host.Core.run, h']
      rfl
    | refused r =>
      have h' : Sys2Proof.core.step s = .refused r := hs
      simp only [Host.Core.run, h']
      rfl
  | succ n ih =>
    cases hs : step s with
    | next v => rw [run_succ_of_step (n + 1) hs]; exact ih (run_succ_of_step n hs ▸ h)
    | fault r =>
      have h' : Sys2Proof.core.step s = .fault r := hs
      simp only [Host.Core.run, h'] at h; cases h
    | refused r =>
      have h' : Sys2Proof.core.step s = .refused r := hs
      simp only [Host.Core.run, h'] at h; cases h

/-- With a choice listed, no free choice is drawn: the step is the same for every source of free choices. -/
theorem advance_listed {s : State} (f g : Nat → Agent) (h : s.turns ≠ []) : advance f s = advance g s := by
  unfold advance
  cases hu : s.turns with
  | nil => exact absurd hu h
  | cons u ts => cases u <;> rfl

/-- What stands at number k after a step of instance k: its own step, where there is such an instance. -/
theorem stepInstance_self (k : Nat) (p : Platform) : (stepInstance k p)[k]? = (p[k]?).map (CoreInstance.next k) := by
  unfold stepInstance
  cases h : p[k]? with
  | none => simp [h]
  | some c =>
    have hk := (List.getElem?_eq_some_iff.mp h).1
    simp [hk]

end Sys2Proof.Machine
end

