-- ==== Sys2Proof/Tests/Slice0.lean ====
section
/-! SUPPORT. Tests of the model against the words and values the spec prints (spec/95_test_vectors.md and the examples of the
rules), and, for each statement with hypotheses, a concrete case that meets them. -/

namespace Sys2Proof.Tests

open Sys2Proof Sys2Proof.Machine

/-! ## States the tests start from -/

/-- The outcome is a next state with property p. -/
def nextWith (o : Host.Outcome State Fault Refusal) (p : State → Bool) : Bool :=
  match o with
  | .next t => p t
  | .fault _ => false
  | .refused _ => false

/-- The outcome is the fault UnwrittenRead of register r. -/
def faultsOn (o : Host.Outcome State Fault Refusal) (r : Reg) : Bool :=
  match o with
  | .next _ => false
  | .fault f => f == .unwrittenRead r
  | .refused _ => false

/-- The standard initial hash value (95_test_vectors.md section 0.1). -/
def iv : Vector Word 8 :=
  #v[0x6a09e667, 0xbb67ae85, 0x3c6ef372, 0xa54ff53a, 0x510e527f, 0x9b05688c, 0x1f83d9ab, 0x5be0cd19]

/-- The block of "abc" (95_test_vectors.md section 0.2). -/
def abc : Vector Word 16 := #v[0x80636261, 0, 0, 0, 0, 0, 0, 0, 0, 0, 0, 0, 0, 0, 0, 0x18000000]

/-- CORE in IDLE with the initial value and the block of "abc" written. -/
def loaded : State :=
  { State.reset with
    h := iv
    hWritten := Vector.replicate 8 true
    m := abc
    mWritten := Vector.replicate 16 true }

/-- The same with a compression of "abc" in phase ROUND, before round n; W and V are not computed. -/
def inRound (n : Fin 65) : State := { loaded with phase := .round, rnd := n }

/-- A state in phase FOLD whose W and V are those of its block. -/
def inFold : State :=
  { loaded with
    phase := .fold
    rnd := 64
    w := expand loaded.m
    v := roundsUpTo (expand loaded.m) loaded.h 64 }

/-! ## WellFormed refuses an ill-formed term -/

theorem test_wf_refuses_wrH_8 : (Instr.wrH 8 0).wf = false := by decide
theorem test_wf_refuses_wrM_16 : (Instr.wrM 16 0).wf = false := by decide
theorem test_wf_refuses_rdH_8 : (Instr.rdH 8).wf = false := by decide
theorem test_wf_refuses_rdM_16 : (Instr.rdM 16).wf = false := by decide

/-! ## Decoding: words written from the fields OP, RSVD, IDX of R61 and the opcodes of R67 -/

theorem test_decode_nop : decode ⟨0b0000000000000000, 0x11223344⟩ = .legal .nop := by decide
theorem test_decode_wrH : decode ⟨0b0001000000000111, 0x11223344⟩ = .legal (.wrH 7 0x11223344) := by decide
theorem test_decode_wrM : decode ⟨0b0010000000001111, 0x11223344⟩ = .legal (.wrM 15 0x11223344) := by decide
theorem test_decode_rdH : decode ⟨0b0011000000000011, 0x11223344⟩ = .legal (.rdH 3) := by decide
theorem test_decode_rdM : decode ⟨0b0100000000001010, 0x11223344⟩ = .legal (.rdM 10) := by decide
theorem test_decode_rdK : decode ⟨0b0101000000111110, 0x11223344⟩ = .legal (.rdK 62) := by decide
theorem test_decode_start : decode ⟨0b0110000000000000, 0x11223344⟩ = .legal .start := by decide
theorem test_decode_rdStatus : decode ⟨0b0111000000000000, 0x11223344⟩ = .legal .rdStatus := by decide
theorem test_decode_clrErr : decode ⟨0b1000000000000000, 0x11223344⟩ = .legal .clrErr := by decide

/-- The illegal words of 95_test_vectors.md section 2.7, and 0x5040 of section 2.3, with their causes. -/
theorem test_decode_illegal_words :
    ([0x0001, 0x1008, 0x100f, 0x1010, 0x2010, 0x3008, 0x4010, 0x6001, 0x7020, 0x8001].map fun c => decode ⟨c, 0x11223344⟩) =
      List.replicate 10 (.illegal .badIndex) ∧
    ([0x0040, 0x10c8, 0x0fc0, 0x8fff, 0x5040].map fun c => decode ⟨c, 0x11223344⟩) =
      List.replicate 5 (.illegal .reservedBits) ∧
    ([0x9000, 0xa123, 0xf0ff, 0xffff].map fun c => decode ⟨c, 0x11223344⟩) = List.replicate 4 (.illegal .reservedOp) := by
  decide

/-- The host's numbering: 16 bits give the command word, and write data above it is kept where 48 bits are given. -/
theorem test_table_words :
    decodeTableWord 16 0x6000 = some .start ∧ decodeTableWord 16 0x1003 = some (.wrH 3 0) ∧
    decodeTableWord 48 0x6a09e6671003 = some (.wrH 3 0x6a09e667) ∧ decodeTableWord 16 0x9000 = none := by decide

/-! ## Assembler text (R74) -/

theorem test_asm_nop : assembleText ['N', 'O', 'P', ' ', ';', 'x'] = some ⟨0x0000, 0⟩ := by decide

theorem test_asm_wrH :
    assembleText ['W', 'R', '_', 'H', ' ', '0', ',', ' ', '0', 'x', '6', 'a', '0', '9', 'e', '6', '6', '7'] =
      some ⟨0x1000, 0x6a09e667⟩ := by decide

theorem test_asm_hex_index : assembleText ['R', 'D', '_', 'K', ' ', '0', 'x', '3', 'f'] = some ⟨0x503f, 0⟩ := by decide

/-- RD_H 8 is refused in the mnemonic form, and `.cmd` produces the word. -/
theorem test_asm_refuses_bad_index :
    assembleText ['R', 'D', '_', 'H', ' ', '8'] = none ∧
    assembleText ['.', 'c', 'm', 'd', ' ', '0', 'x', '3', '0', '0', '8', ',', '0', 'x', '0', '0', '0', '0', '0', '0', '0', '0']
      = some ⟨0x3008, 0⟩ := by decide

/-! ## Operators (95_test_vectors.md section 2.1) -/

theorem test_sigmas : sigma0 0x12345678 = 0xe7fce6ee ∧ sigma1 0x12345678 = 0xa1f78649 ∧
    Sigma0 0x12345678 = 0x66146474 ∧ Sigma1 0x12345678 = 0x3561abda := by decide

theorem test_ch_maj : Ch 0x510e527f 0x9b05688c 0x1f83d9ab = 0x1f85c98c ∧
    Maj 0x6a09e667 0xbb67ae85 0x3c6ef372 = 0x3a6fe667 := by decide

theorem test_rotr_ends : rotr 0x12345678 1 = 0x091a2b3c ∧ rotr 0x12345678 31 = 0x2468acf0 := by decide

/-- W[27] of "abc" from the four words it reads (95_test_vectors.md L1-5): the sum wraps. -/
theorem test_schedule_wraps :
    schedWord 27 ⟨by decide, by decide⟩
      (((Vector.replicate 64 0).set 20 0x3e9d7b78).set 25 0xb73679a2) = 0x32663c5b := by decide +kernel

/-- Constants of 95_test_vectors.md section 2.3, at the ends of rows of the table. -/
theorem test_rom : romK[1] = 0x71374491 ∧ romK[15] = 0xc19bf174 ∧ romK[16] = 0xe49b69c1 ∧ romK[31] = 0x14292967 ∧
    romK[32] = 0x27b70a85 ∧ romK[48] = 0x19a4c116 ∧ romK[62] = 0xbef9a3f7 := by decide

/-- Round 0 of "abc" (95_test_vectors.md section 2.4): V[3] and V[7], and V[0] kept. -/
theorem test_round_0 :
    (roundVars 0 0x428a2f98 0x61626380 iv)[3] = 0xfa2a4622 ∧ (roundVars 0 0x428a2f98 0x61626380 iv)[7] = 0x5d6aebcd ∧
    (roundVars 0 0x428a2f98 0x61626380 iv)[0] = 0x6a09e667 := by decide +kernel

/-- Round 1 of "abc" from the state after round 0: the binding has rotated by one (V[2] and V[6] are written). -/
theorem test_round_1 :
    let v := (iv.set 3 0xfa2a4622).set 7 0x5d6aebcd
    (roundVars 1 0x71374491 0 v)[2] = 0x78ce7989 ∧ (roundVars 1 0x71374491 0 v)[6] = 0x5a6ad9ad := by decide +kernel

/-- The fold of "abc" (95_test_vectors.md section 2.5). -/
theorem test_fold :
    foldWords iv #v[0x506e3058, 0xd39a2165, 0x04d24d6c, 0xb85e2ce9, 0x5ef50f24, 0xfb121210, 0x948d25b6, 0x961f4894] =
      #v[0xba7816bf, 0x8f01cfea, 0x414140de, 0x5dae2223, 0xb00361a3, 0x96177a9c, 0xb410ff61, 0xf20015ad] := by
  decide +kernel

/-- The digest of "abc" (95_test_vectors.md L1-2): the pure function of R129. -/
theorem test_compress_abc :
    compress iv abc =
      #v[0xba7816bf, 0x8f01cfea, 0x414140de, 0x5dae2223, 0xb00361a3, 0x96177a9c, 0xb410ff61, 0xf20015ad] := by
  decide +kernel

/-! ## One step of the machine -/

theorem test_step_nop : nextWith (step (State.reset.present ⟨0x0000, 0x11223344⟩))
    (fun t => t.status == 0 && t.replies == [0] && t.host == []) = true := by decide +kernel

/-- `WR_H 0, 0x6a09e667` (R173). -/
theorem test_step_wrH : nextWith (step (State.reset.present ⟨0x1000, 0x6a09e667⟩))
    (fun t => t.readH 0 == some 0x6a09e667 && t.readH 1 == none && t.replies == [0]) = true := by decide +kernel

/-- WR_H while BUSY is held: CORE moves and the transaction stays (R171). -/
theorem test_step_wrH_held : nextWith (step ((inRound 10).present ⟨0x1000, 5⟩))
    (fun t => t.h == iv && t.host == [⟨0x1000, 5⟩] && t.replies == [] && t.rnd == 11) = true := by decide +kernel

/-- `WR_M 0, 0x80636261` (R174): no swap at the write. -/
theorem test_step_wrM : nextWith (step (State.reset.present ⟨0x2000, 0x80636261⟩))
    (fun t => t.readM 0 == some 0x80636261 && t.readM 15 == none && t.replies == [0]) = true := by decide +kernel

/-- `.cmd 0x2010, v` writes nothing and leaves STATUS 0x34 (section 2.7). -/
theorem test_step_wrM_bad_index : nextWith (step (State.reset.present ⟨0x2010, 0x11223344⟩))
    (fun t => t.readM 0 == none && t.status == 0x34 && t.replies == [0]) = true := by decide +kernel

theorem test_step_rdH : nextWith (step (loaded.present ⟨0x3007, 0⟩)) (fun t => t.replies == [0x5be0cd19]) = true := by
  decide +kernel

/-- RD_H 3 from reset (section 2.7). -/
theorem test_step_rdH_unwritten : faultsOn (step (State.reset.present ⟨0x3003, 0⟩)) (.h 3) = true := by decide +kernel

/-- `RD_M 15` returns the raw word (R176). -/
theorem test_step_rdM : nextWith (step (loaded.present ⟨0x400f, 0⟩)) (fun t => t.replies == [0x18000000]) = true := by
  decide +kernel

/-- RD_M 0 from reset (section 2.7). -/
theorem test_step_rdM_unwritten : faultsOn (step (State.reset.present ⟨0x4000, 0⟩)) (.m 0) = true := by decide +kernel

/-- `RD_K 5` while BUSY returns 59f111f1 (section 2.8), without a core step. -/
theorem test_step_rdK_busy : nextWith (step ((inRound 10).present ⟨0x5005, 0⟩))
    (fun t => t.replies == [0x59f111f1] && t.rnd == 10) = true := by decide +kernel

/-- `RD_K 63` (section 2.3). -/
theorem test_step_rdK_last : nextWith (step (State.reset.present ⟨0x503f, 0⟩)) (fun t => t.replies == [0xc67178f2]) = true := by
  decide +kernel

/-- START of "abc" (section 2.6): STATUS 1, rnd 0, W[0] and W[15] swapped, V = H. -/
theorem test_step_start : nextWith (step (loaded.present ⟨0x6000, 0⟩))
    (fun t => t.status == 1 && t.rnd == 0 && t.w[0] == 0x61626380 && t.w[15] == 0x18 && t.v == iv) = true := by
  decide +kernel

/-- START with M[15] alone unwritten (section 2.9). -/
theorem test_step_start_unwritten :
    faultsOn (step (({ loaded with mWritten := loaded.mWritten.set 15 false } : State).present ⟨0x6000, 0⟩)) (.m 15) = true := by
  decide +kernel

/-- RD_STATUS after a finished compression (R179). -/
theorem test_step_rdStatus : nextWith (step (({ loaded with done := true } : State).present ⟨0x7000, 0⟩))
    (fun t => t.replies == [0x2] && t.done) = true := by decide +kernel

/-- RD_STATUS while BUSY with cause 1 recorded (section 2.8). -/
theorem test_step_rdStatus_busy :
    nextWith (step (({ inRound 10 with err := true, cause := 1 } : State).present ⟨0x7000, 0⟩))
      (fun t => t.replies == [0x15]) = true := by decide +kernel

/-- CLR_ERR while BUSY: 0x15 to 0x01 (section 2.8). -/
theorem test_step_clrErr : nextWith (step (({ inRound 10 with err := true, cause := 1 } : State).present ⟨0x8000, 0⟩))
    (fun t => t.status == 0x1 && t.replies == [0]) = true := by decide +kernel

/-- `.cmd 0x0040, 0` from reset (R181). -/
theorem test_step_reserved_bits : nextWith (step (State.reset.present ⟨0x0040, 0⟩)) (fun t => t.status == 0x24) = true := by
  decide +kernel

/-- The first cause is kept: 0x1008 after cause 1 leaves STATUS 0x14 (section 2.7). -/
theorem test_step_first_cause_kept :
    nextWith (step (({ State.reset with err := true, cause := 1 } : State).present ⟨0x1008, 0⟩))
      (fun t => t.status == 0x14) = true := by decide +kernel

/-- Round step 16 writes W[16] = 0x61626380 first (section 2.6). -/
theorem test_core_round_16 : nextWith (coreStep { inRound 16 with w := loadw abc (Vector.replicate 64 0) })
    (fun t => t.w[16] == 0x61626380 && t.rnd == 17 && t.phase == .round) = true := by decide +kernel

/-- After round 63 the phase is FOLD with rnd 64 (section 2.6). -/
theorem test_core_round_63 : nextWith (coreStep (inRound 63)) (fun t => t.phase == .fold && t.rnd == 64) = true := by
  decide +kernel

/-- `rst` in mid-compression (section 2.9): STATUS 0, IDLE, H and M unwritten. -/
theorem test_step_rst : nextWith (step { inRound 30 with turns := [.rst], done := true, err := true, cause := 3 })
    (fun t => t.status == 0 && t.readH 0 == none && t.readM 15 == none) = true := by decide +kernel

/-! ## Each hypothesis is met: encoding -/

theorem test_meets_DecodeOfEncodeIsTheCommand :
    (Instr.wrH 7 0xdeadbeef).wf = true ∧ (Instr.wrM 15 1).wf = true ∧ (Instr.rdH 7).wf = true ∧ (Instr.rdM 15).wf = true ∧
      (Instr.rdK 63).wf = true ∧ Instr.nop.wf = true ∧ Instr.start.wf = true ∧ Instr.rdStatus.wf = true ∧
      Instr.clrErr.wf = true := by decide

theorem test_meets_EncodeOfDecodeIsTheWord :
    decode ⟨0x1007, 5⟩ = .legal (.wrH 7 5) ∧ decode ⟨0x200f, 5⟩ = .legal (.wrM 15 5) ∧ decode ⟨0x503f, 5⟩ = .legal (.rdK 63) := by
  decide

/-- A word on each side of each test of the decoder. -/
theorem test_meets_IllegalCausePriority :
    decode ⟨0xF0FF, 0⟩ = .illegal .reservedOp ∧ decode ⟨0x10C8, 0⟩ = .illegal .reservedBits ∧
    decode ⟨0x9000, 0⟩ = .illegal .reservedOp ∧ decode ⟨0x8040, 0⟩ = .illegal .reservedBits ∧
    decode ⟨0x1008, 0⟩ = .illegal .badIndex ∧ decode ⟨0x1007, 0⟩ = .legal (.wrH 7 0) := by decide

theorem test_meets_OpcodeMapIsTheDecoder :
    opcodeMap.length = 9 ∧ (opcodeMap[1]?.map fun r => r.covers 0x1007) = some true ∧
      (opcodeMap[8]?.map fun r => r.covers 0x8000) = some true := by decide

theorem test_meets_LegalWordCount : rsvdField 0x0040 ≠ 0 ∧ rsvdField 0x8fff ≠ 0 := by decide

theorem test_meets_WriteDataOnlyForWrites :
    (opField 0x3001 ≠ 1 ∧ opField 0x3001 ≠ 2) ∧
    (decode ⟨0x1007, 9⟩ = .legal (.wrH 7 9) ∧ opField 0x1007 = 1) ∧
    (decode ⟨0x200f, 9⟩ = .legal (.wrM 15 9) ∧ opField 0x200f = 2) := by decide

theorem test_meets_AssemblerForms : (Instr.wrH 7 1).wf = true ∧ (Instr.wrH 8 1).wf = false := by decide

/-- The loop of WAIT_IDLE ends after the reply with BUSY clear, and not before. -/
theorem test_meets_PseudoCommandExpansions : waitIdleEnds [1, 1, 2] = true ∧ waitIdleEnds [1, 1] = false := by decide

/-! ## Operators, schedule and rounds -/

theorem test_meets_RotrMovesEveryBit : (1 ≤ 1 ∧ 1 ≤ 31) ∧ (1 ≤ 31 ∧ 31 ≤ 31) ∧ 31 < 32 := by decide

theorem test_meets_ShrFillsWithZeros : (28 : Nat) < 32 ∧ 28 + 3 ≤ 31 ∧ (29 : Nat) < 32 ∧ ¬ 29 + 3 ≤ 31 := by decide

theorem test_meets_AddIsModularInAnyGrouping : List.Perm [(1 : Word), 0xFFFFFFFF] [0xFFFFFFFF, 1] := by decide

theorem test_meets_BswapReversesTheBytes :
    (0 : Nat) < 4 ∧ (3 : Nat) < 4 ∧ (7 : Nat) < 8 ∧ (bswap32 0x00000080).getLsbD (8 * 3 + 7) = true := by decide

theorem test_meets_SigmaFunctionsBitByBit : (31 : Nat) < 32 ∧ (sigma0 0x80000000).getLsbD 28 = true := by decide

/-- Stream bytes 61 62 63 80 in word 0, and 00 00 00 18 in word 15. -/
theorem test_meets_StreamBytesBecomeBigEndian :
    abc[0] = (0x80 : BitVec 8) ++ (0x63 : BitVec 8) ++ (0x62 : BitVec 8) ++ (0x61 : BitVec 8) ∧
    abc[15] = (0x18 : BitVec 8) ++ (0 : BitVec 8) ++ (0 : BitVec 8) ++ (0 : BitVec 8) := by decide

theorem test_meets_ExpandEquations :
    (15 : Nat) < 16 ∧ (16 ≤ 16 ∧ 16 < 64) ∧ (16 ≤ 63 ∧ 63 < 64) := by decide

/-- Two schedules that differ in W[26], which SCHED(27) does not read (95_test_vectors.md L1-4). -/
theorem test_meets_ScheduleDependsOnFourWords :
    let w : Vector Word 64 := Vector.replicate 64 0
    let w' : Vector Word 64 := w.set 26 0xffffffff
    w ≠ w' ∧ (16 ≤ 27 ∧ 27 < 64) ∧ w[27 - 16] = w'[27 - 16] ∧ w[27 - 7] = w'[27 - 7] ∧ w[27 - 15] = w'[27 - 15] ∧
      w[27 - 2] = w'[27 - 2] := by decide +kernel

theorem test_meets_WindowFormAgrees : (16 ≤ 16 ∧ 16 < 64) ∧ (16 ≤ 63 ∧ 63 < 64) := by decide

/-- The bounds of the first and the last constant, with the roots of 2 and 311 whose low words R121 lists. -/
theorem test_meets_RomHoldsTheCubeRoots :
    (0x1428a2f98 ^ 3 ≤ 2 * 2 ^ 96 ∧ 2 * 2 ^ 96 < 0x1428a2f99 ^ 3) ∧
    (0x6c67178f2 ^ 3 ≤ 311 * 2 ^ 96 ∧ 311 * 2 ^ 96 < 0x6c67178f3 ^ 3) := by decide

theorem test_meets_RoundWritesTwoVariables :
    (0 : Fin 8) ≠ binding .D 0 ∧ (0 : Fin 8) ≠ binding .H 0 ∧ binding .D 63 = 4 ∧ binding .H 63 = 0 := by decide

theorem test_meets_ShiftingFormAgrees : (0 : Nat) ≤ 64 ∧ (64 : Nat) ≤ 64 ∧ binding .H 64 = 7 := by decide

/-! ## Sequencer -/

/-- The first round, both sides of where scheduling begins, and the last round. -/
theorem test_meets_RoundStepEffect :
    ((inRound 0).phase = .round ∧ (inRound 0).rnd.val < 64) ∧ ((inRound 15).rnd.val < 16) ∧
    (16 ≤ (inRound 16).rnd.val ∧ (inRound 16).rnd.val < 64 ∧ (inRound 16).rnd.val ≠ 63) ∧
    ((inRound 63).phase = .round ∧ (inRound 63).rnd.val = 63) := by decide

theorem test_meets_FoldStepEffect : inFold.phase = .fold ∧ inFold.hWritten[(0 : Fin 8)] = true ∧ inFold.hWritten[(7 : Fin 8)] = true := by
  decide

theorem test_meets_IdleHasNoCoreStep : loaded.phase = .idle := rfl

theorem test_meets_SixtyFiveCoreSteps : (inRound 0).phase = .round ∧ (inRound 0).rnd = 0 := by decide

theorem loaded_allWritten : loaded.allWritten := by unfold State.allWritten; decide

/-- START of "abc" accepted, with CORE listed to move 65 times. -/
def startedCore : State := ({ loaded with turns := List.replicate 65 (.of .core) } : State).init.accept 0

/-- A property of a next state, as an outcome. -/
theorem exists_of_nextWith {o : Host.Outcome State Fault Refusal} {p : State → Bool} (h : nextWith o p = true) :
    ∃ v, o = .next v ∧ p v = true := by
  cases o with
  | next v => exact ⟨v, rfl, h⟩
  | fault _ => cases h
  | refused _ => cases h

/-- BUSY for 64 steps of such a run, and not after the next one. -/
theorem startedCore_busy : (∀ k : Fin 65, nextWith (Sys2Proof.core.run k.val startedCore) (·.busy) = true) ∧
    nextWith (Sys2Proof.core.run 65 startedCore) (fun t => !t.busy) = true := by decide +kernel

theorem test_meets_CompressionEndToEnd :
    (loaded.busy = false ∧ loaded.allWritten) ∧
    (∃ s u t : State, s.busy = false ∧ exec .start s = .next startedCore ∧ (∀ x ∈ startedCore.turns, x ≠ .rst) ∧
      (∀ k, k ≤ 64 → ∃ v, Sys2Proof.core.run k startedCore = .next v ∧ v.busy = true) ∧
      Sys2Proof.core.run 64 startedCore = .next u ∧ step u = .next t ∧ t.busy = false) := by
  obtain ⟨u, hu, -⟩ := exists_of_nextWith (startedCore_busy.1 64)
  obtain ⟨t, ht, hb⟩ := exists_of_nextWith startedCore_busy.2
  refine ⟨⟨rfl, loaded_allWritten⟩, { loaded with turns := List.replicate 65 (.of .core) }, u, t, rfl, rfl, ?_, ?_, hu, ?_, ?_⟩
  · intro x hx; rw [List.eq_of_mem_replicate (show x ∈ List.replicate 65 (Turn.of .core) from hx)]; decide
  · intro k hk; exact exists_of_nextWith (startedCore_busy.1 ⟨k, by omega⟩)
  · rw [← run_succ_of_run 64 hu]; exact ht
  · simpa using hb

theorem test_meets_SecondStartChains :
    loaded.busy = false ∧ loaded.allWritten ∧ ({ loaded with done := true } : State).busy = false ∧
      ({ loaded with done := true } : State).allWritten := ⟨rfl, loaded_allWritten, rfl, loaded_allWritten⟩

/-- And a value of rnd that is not the one of the first state. -/
theorem test_meets_ScratchBeforeStartIsNeverRead : loaded.busy = false ∧ loaded.allWritten ∧ loaded.rnd ≠ 64 :=
  ⟨rfl, loaded_allWritten, by decide⟩

/-- The state right after START of "abc" meets the invariant, BUSY and before round 0. -/
theorem started_inv : loaded.init.Inv where
  cause_of_no_err := fun _ => rfl
  rnd_in_range := ⟨fun _ => by decide, fun h => by simp at h⟩
  written := fun _ => loaded_allWritten
  not_done := fun _ => rfl
  sched := by
    intro _ j hj
    have h16 : j.val < 16 := by simpa using hj
    rw [State.init_w, State.init_m, loadw_low _ _ _ h16, expand_eq_upTo loaded.m 0 j.val j.isLt (.inr h16) (by decide),
      expandUpTo_low loaded.m 0 j.val h16]
  vars := fun _ => rfl

/-- The state before the fold meets it too. -/
theorem inFold_inv : inFold.Inv where
  cause_of_no_err := fun _ => rfl
  rnd_in_range := ⟨fun h => (by cases h), fun _ => rfl⟩
  written := fun _ => loaded_allWritten
  not_done := fun _ => rfl
  sched := fun _ _ _ => rfl
  vars := fun _ => rfl

/-- With CORE to move, a BUSY state of the invariant, and the state before the fold, have a next state. -/
theorem test_meets_EveryStepKeepsTheInvariant :
    ({ loaded.init with turns := [.of .core] } : State).Inv ∧
    (∃ t, step { loaded.init with turns := [.of .core] } = .next t) ∧
    ({ inFold with turns := [.of .core] } : State).Inv ∧ (∃ t, step { inFold with turns := [.of .core] } = .next t) :=
  ⟨⟨started_inv.1, started_inv.2, started_inv.3, started_inv.4, started_inv.5, started_inv.6⟩, ⟨_, rfl⟩,
   ⟨inFold_inv.1, inFold_inv.2, inFold_inv.3, inFold_inv.4, inFold_inv.5, inFold_inv.6⟩, ⟨_, rfl⟩⟩

/-- The same two states for the statement about BUSY: no `rst` is the next choice. -/
theorem test_meets_CompressionIsAtomicForHost :
    (loaded.init.Inv ∧ loaded.init.busy = true ∧ (∀ ts, loaded.init.turns ≠ .rst :: ts)) ∧
    (inFold.Inv ∧ inFold.busy = true ∧ (∀ ts, inFold.turns ≠ .rst :: ts)) ∧
    (∃ t, step inFold = .next t) := by
  refine ⟨⟨started_inv, rfl, fun ts h => (by cases h)⟩, ⟨inFold_inv, rfl, fun ts h => (by cases h)⟩, ?_⟩
  obtain ⟨ts, h, _⟩ | ⟨a, ts, h, _⟩ | ⟨_, h⟩ := step_eq inFold
  · cases h
  · cases h
  · rw [h]; cases Config.freeAgent inFold.draws <;> exact ⟨_, rfl⟩

/-- BUSY states, and the state after reset with RD_H 3 presented, which faults. -/
theorem test_meets_OnlyUnwrittenReadsFault :
    loaded.init.Inv ∧ inFold.Inv ∧ (State.reset.present ⟨0x3003, 0⟩).Inv ∧
      step (State.reset.present ⟨0x3003, 0⟩) = .fault (.unwrittenRead (.h 3)) :=
  ⟨started_inv, inFold_inv,
   ⟨fun _ => rfl, ⟨fun h => (by cases h), fun h => (by cases h)⟩, fun h => (by cases h), fun h => (by cases h),
    fun h => (by cases h), fun h => (by cases h)⟩, rfl⟩

/-- Two states with different blocks in the same round. -/
theorem test_meets_ControlFlowIgnoresData :
    let t : State := { inRound 5 with m := Vector.replicate 16 1 }
    inRound 5 ≠ t ∧ (inRound 5).phase = t.phase ∧ (inRound 5).rnd = t.rnd := by decide +kernel

/-- A core step in each phase. -/
theorem test_meets_CoreStepsWriteOnly :
    (∃ t, coreStep loaded = .next t) ∧ (∃ t, coreStep (inRound 63) = .next t) ∧ (inRound 63).phase ≠ .fold ∧
      (∃ t, coreStep inFold = .next t) :=
  ⟨⟨_, rfl⟩, ⟨_, rfl⟩, by decide, ⟨_, rfl⟩⟩

/-- RD_STATUS presented while BUSY, with no choice listed. -/
theorem test_meets_EitherAgentMayBeNext :
    let s : State := { inRound 0 with host := [⟨0x7000, 0⟩] }
    s.hostReady = true ∧ s.busy = true ∧ s.turns = [] := by decide +kernel

/-! ## Commands -/

theorem test_meets_NopReturnsZero :
    (opField 0x0001 = 0 ∧ idxField 0x0001 ≠ 0) ∧ (opField 0x0040 = 0 ∧ rsvdField 0x0040 ≠ 0) := by decide

/-- Index 7 and 8, BUSY and not. -/
theorem test_meets_WrHWritesOneElement :
    (7 : Idx).toNat ≤ 7 ∧ 8 ≤ (8 : Idx).toNat ∧ ((7 : Idx).toNat < 8 ∧ (inRound 0).busy = true) ∧
      ((7 : Idx).toNat < 8 ∧ State.reset.busy = false) := by decide

/-- Index 15 and 16, BUSY and not. -/
theorem test_meets_WrMWritesOneElement :
    (15 : Idx).toNat ≤ 15 ∧ 16 ≤ (16 : Idx).toNat ∧ ((15 : Idx).toNat < 16 ∧ (inRound 0).busy = true) ∧
      ((15 : Idx).toNat < 16 ∧ State.reset.busy = false) := by decide

/-- Held, written and unwritten. -/
theorem test_meets_RdHReturnsTheElement :
    (7 : Idx).toNat ≤ 7 ∧ ((7 : Idx).toNat < 8 ∧ (inRound 0).busy = true) ∧
    (loaded.busy = false ∧ loaded.hWritten[(7 : Idx).toNat]'(by decide) = true) ∧
    (State.reset.busy = false ∧ State.reset.hWritten[(7 : Idx).toNat]'(by decide) = false) := by decide

/-- Held, written and unwritten. -/
theorem test_meets_RdMReturnsTheElement :
    (15 : Idx).toNat ≤ 15 ∧ ((15 : Idx).toNat < 16 ∧ (inRound 0).busy = true) ∧
    (loaded.busy = false ∧ loaded.mWritten[(15 : Idx).toNat]'(by decide) = true) ∧
    (State.reset.busy = false ∧ State.reset.mWritten[(15 : Idx).toNat]'(by decide) = false) := by decide

theorem test_meets_StartPerformsInit :
    (inRound 0).busy = true ∧ inFold.busy = true ∧ loaded.busy = false ∧ loaded.allWritten :=
  ⟨rfl, rfl, rfl, loaded_allWritten⟩

/-- Only M[15] unwritten, and only H[7] unwritten. -/
theorem test_meets_StartFaultsOnUnwrittenInput :
    let s : State := { loaded with mWritten := loaded.mWritten.set 15 false }
    let t : State := { loaded with hWritten := loaded.hWritten.set 7 false }
    (s.busy = false ∧ ¬ s.allWritten) ∧ (t.busy = false ∧ ¬ t.allWritten) := by
  unfold State.allWritten; decide

/-- An illegal word of each cause, presented while BUSY. -/
theorem test_meets_IllegalCommandEffect :
    (∃ rest, ({ inRound 0 with host := [⟨0x9000, 0⟩] } : State).host = ⟨0x9000, 0⟩ :: rest) ∧
    decode ⟨0x9000, 0⟩ = .illegal .reservedOp ∧ decode ⟨0x0040, 0⟩ = .illegal .reservedBits ∧
    decode ⟨0x1008, 0⟩ = .illegal .badIndex := ⟨⟨[], rfl⟩, by decide, by decide, by decide⟩

theorem test_meets_BadIndexTermIsTheIllegalWord :
    (Instr.wrH 8 1).wf = false ∧ (Instr.wrM 16 1).wf = false ∧ (Instr.rdH 63).wf = false ∧ (Instr.rdM 63).wf = false := by decide

/-- RD_H 0 right after START (the longest hold), with HOST's turns listed; and the same from a state of the invariant. -/
theorem test_meets_HeldUntilTheFold :
    let s : State := { inRound 0 with host := [⟨0x3000, 0⟩], turns := [.of .host, .of .core] }
    let r : State := { loaded.init with host := [⟨0x3000, 0⟩], turns := [.of .host, .of .core] }
    ((Instr.rdH 0).wf = true ∧ heldCommand (.rdH 0) = true ∧ s.busy = true) ∧
    (s.host = ⟨0x3000, 0⟩ :: [] ∧ decode ⟨0x3000, 0⟩ = .legal (.rdH 0) ∧ s.rndInRange ∧
      (∀ u ∈ s.turns.take 65, u ≠ .rst)) ∧
    (r.host = ⟨0x3000, 0⟩ :: [] ∧ r.busy = true ∧ r.Inv ∧ (∀ u ∈ r.turns.take 66, u ≠ .rst)) := by
  refine ⟨by decide, ⟨rfl, by decide, ⟨fun _ => (by decide), fun h => (by cases h)⟩, by decide⟩, rfl, rfl, ?_, by decide⟩
  exact ⟨started_inv.1, started_inv.2, started_inv.3, started_inv.4, started_inv.5, started_inv.6⟩

/-- A held command in IDLE and an unheld one while BUSY, each kind of choice. -/
theorem test_meets_StepRunsTheDecodedCommand :
    let s : State := { loaded with host := [⟨0x3000, 0⟩] }
    (s.host = ⟨0x3000, 0⟩ :: [] ∧ decode ⟨0x3000, 0⟩ = .legal (.rdH 0) ∧ s.busy = false ∧ s.turns = []) ∧
    ({ s with turns := [.of .host] } : State).turns = .of .host :: [] ∧
    ({ s with turns := [.of .core] } : State).turns = .of .core :: [] ∧
    (decodeTableWord 16 0x7000 = some .rdStatus ∧ heldCommand .rdStatus = false ∧ (inRound 0).busy = true) ∧
    (decodeTableWord 16 0x6000 = some .start ∧ loaded.busy = false) := by decide +kernel

/-- A next state for a held command and for each effect. -/
theorem test_meets_CommandsWriteOnly :
    (∃ t, exec (.wrH 7 1) (inRound 0) = .next t) ∧ (∃ t, exec (.wrH 7 1) loaded = .next t) ∧
    (∃ t, exec (.wrM 15 1) loaded = .next t) ∧ (∃ t, exec (.wrM 16 1) loaded = .next t) ∧
    (∃ t, exec .start loaded = .next t) ∧ (∃ t, exec .clrErr loaded = .next t) :=
  ⟨⟨_, rfl⟩, ⟨_, rfl⟩, ⟨_, rfl⟩, ⟨_, rfl⟩, ⟨loaded.init.accept 0, rfl⟩, ⟨_, rfl⟩⟩

/-- Reads that return a value, and writes, from the loaded state. -/
theorem test_meets_ReadsAndWritesRepeat :
    (exec (.rdH 7) loaded = .next (loaded.accept 0x5be0cd19) ∧
      (loaded.accept 0x5be0cd19).replies = loaded.replies ++ [0x5be0cd19]) ∧
    (∃ t, exec (.rdM 15) loaded = .next t) ∧ (∃ t, exec (.rdK 63) loaded = .next t) ∧ (∃ t, exec .rdStatus loaded = .next t) ∧
    (∃ t, exec (.wrH 7 1) loaded = .next t) ∧ (∃ t, exec .clrErr loaded = .next t) ∧
    (Instr.rdH 7).wf = true ∧ (Instr.rdM 15).wf = true ∧ (Instr.wrH 7 1).wf = true :=
  ⟨⟨rfl, rfl⟩, ⟨_, rfl⟩, ⟨_, rfl⟩, ⟨_, rfl⟩, ⟨_, rfl⟩, ⟨_, rfl⟩, by decide, by decide, by decide⟩

/-- A command that faults: the last element of H unwritten. -/
theorem test_meets_FaultsAreUnwrittenReads :
    exec (.rdH 7) State.reset = .fault (.unwrittenRead (.h 7)) ∧ State.reset.busy = false ∧
      (7 : Idx).toNat = (7 : Fin 8).val ∧ State.reset.hWritten[(7 : Fin 8)] = false := ⟨rfl, rfl, rfl, rfl⟩

theorem test_meets_IllegalCommandCommutesWithCoreStep :
    (∃ t, coreStep (inRound 63) = .next t) ∧ (∃ t, coreStep inFold = .next t) := ⟨⟨_, rfl⟩, ⟨_, rfl⟩⟩

/-- A WR_H step from reset, and a written element to keep. -/
theorem test_meets_WrittenStaysWritten :
    let s : State := loaded.present ⟨0x1000, 5⟩
    (∀ ts, s.turns ≠ .rst :: ts) ∧ (∃ t, step s = .next t) ∧ s.hWritten[(7 : Fin 8)] = true ∧ s.mWritten[(15 : Fin 16)] = true :=
  ⟨fun ts h => (by cases h), ⟨_, rfl⟩, rfl, rfl⟩

/-! ## Reset and platform -/

/-- `rst` with a transaction presented, a compression running and an error recorded. -/
theorem test_meets_ResetHasPriority :
    let s : State := { inRound 30 with err := true, cause := 2, host := [⟨0x1000, 5⟩], turns := [.rst, .of .host] }
    s.turns = .rst :: [.of .host] ∧ s.busy = true := ⟨rfl, rfl⟩

/-- Two instances with a choice listed: one goes on, and one reads an unwritten element. -/
theorem test_meets_InstancesAreIndependent :
    let s : State := loaded.present ⟨0x0000, 0⟩
    let r : State := State.reset.present ⟨0x3003, 0⟩
    let p : Platform := [.running s, .running r]
    (0 : Nat) ≠ 1 ∧ (p[0]? = some (.running s) ∧ s.turns ≠ [] ∧ ∃ t, step s = .next t) ∧
      (p[1]? = some (.running r) ∧ r.turns ≠ [] ∧ step r = .fault (.unwrittenRead (.h 3))) :=
  ⟨by decide, ⟨rfl, fun h => (by cases h), ⟨_, rfl⟩⟩, ⟨rfl, fun h => (by cases h), rfl⟩⟩

/-- The instance that faults ends its own run; the other keeps its state (R56). -/
theorem test_platform_fault_is_local :
    stepInstance 1 [.running loaded, .running (State.reset.present ⟨0x3003, 0⟩)] =
      [.running loaded, .faulted (.unwrittenRead (.h 3))] := rfl

end Sys2Proof.Tests
end

