-- ==== Sys2Proof/Proofs/Encoding.lean ====
section
/-! SUPPORT. When a command word is legal (R68), and the number of legal words. -/

namespace Sys2Proof

/-- The last legal IDX of an opcode, the column `legal IDX` of R67. -/
def lastIndex (op : Nat) : Nat := [0, 7, 15, 7, 15, 63, 0, 0, 0].getD op 0

/-- Every last legal index fits the 6-bit index field. -/
theorem lastIndex_lt (op : Nat) : lastIndex op < 64 := by
  by_cases h : op < 9
  · interval_cases op <;> decide
  · simp [lastIndex, show 9 ≤ op by omega]

@[simp] theorem ranged_legal_iff (last : Nat) (idx : Idx) (i : Instr) :
    (∃ j, ranged last idx i = .legal j) ↔ idx.toNat ≤ last := by
  unfold ranged
  split <;> simp_all

/-- Where the opcode is not reserved, the index alone decides. -/
theorem decodeOp_legal_iff {op : Nat} (h : op ≤ 8) (idx : Idx) (v : Word) :
    (∃ i, decodeOp op idx v = .legal i) ↔ idx.toNat ≤ lastIndex op := by
  have hidx : idx.toNat ≤ 63 := by omega
  interval_cases op <;> simp only [decodeOp, ranged_legal_iff] <;> simp [lastIndex, hidx]

/-- The legality conditions by field: OP not reserved, RSVD 0, IDX in the opcode's range. -/
theorem decode_legal_iff (t : Txn) :
    (∃ i, decode t = .legal i) ↔ (opField t.cmd).toNat ≤ 8 ∧ rsvdField t.cmd = 0 ∧
      (idxField t.cmd).toNat ≤ lastIndex (opField t.cmd).toNat := by
  constructor
  · rintro ⟨i, h⟩
    obtain ⟨hop, hrsvd, hi⟩ := decode_legal h
    exact ⟨hop, hrsvd, (decodeOp_legal_iff hop _ _).1 ⟨i, hi⟩⟩
  · rintro ⟨hop, hrsvd, hidx⟩
    rw [decode_fields hop hrsvd]
    exact (decodeOp_legal_iff hop _ _).2 hidx

theorem decode_cmdWord_legal_iff (op : BitVec 4) (idx : Idx) (v : Word) :
    (∃ i, decode ⟨cmdWord op idx, v⟩ = .legal i) ↔ op.toNat ≤ 8 ∧ idx.toNat ≤ lastIndex op.toNat := by
  simp [decode_legal_iff]

theorem legalWord_iff (c : Cmd) :
    legalWord c = true ↔ (opField c).toNat ≤ 8 ∧ rsvdField c = 0 ∧ (idxField c).toNat ≤ lastIndex (opField c).toNat := by
  rw [← decode_legal_iff ⟨c, 0⟩]
  unfold legalWord
  split <;> simp_all

/-- R68 lists the ranges by mnemonic; they are the last legal indices of R67's column. -/
theorem le_lastIndex_iff {op : BitVec 4} (h : op.toNat ≤ 8) (idx : Idx) :
    idx.toNat ≤ lastIndex op.toNat ↔
      (op ∈ [0x0, 0x6, 0x7, 0x8] → idx = 0) ∧ (op ∈ [0x1, 0x3] → idx.toNat ≤ 7) ∧ (op ∈ [0x2, 0x4] → idx.toNat ≤ 15) := by
  have hidx : idx.toNat ≤ 63 := by omega
  simp only [List.mem_cons, List.not_mem_nil, or_false, ← BitVec.toNat_inj]
  generalize op.toNat = n at h
  interval_cases n <;> simp [lastIndex, hidx]

/-- The legal words as pairs of an opcode and one of its legal indices. -/
def legalPairs : Finset (Σ _ : Nat, Nat) := (Finset.range 9).sigma fun op => Finset.range (lastIndex op + 1)

theorem mem_legalPairs {p : Σ _ : Nat, Nat} : p ∈ legalPairs ↔ p.1 ≤ 8 ∧ p.2 ≤ lastIndex p.1 := by
  simp [legalPairs, Nat.lt_succ_iff]

/-- R68's sum, opcode by opcode: 1 + 8 + 16 + 8 + 16 + 64 + 1 + 1 + 1. -/
theorem card_legalPairs : legalPairs.card = 116 := by
  simp only [legalPairs, Finset.card_sigma, Finset.card_range]
  decide

/-- The opcode and the index of a word. -/
def fieldPair (c : Cmd) : Σ _ : Nat, Nat := ⟨(opField c).toNat, (idxField c).toNat⟩

/-- The word of an opcode and an index, RSVD = 0. -/
def pairWord (p : Σ _ : Nat, Nat) : Cmd := cmdWord (BitVec.ofNat 4 p.1) (BitVec.ofNat 6 p.2)

theorem pairWord_fieldPair {c : Cmd} (h : legalWord c = true) : pairWord (fieldPair c) = c := by
  obtain ⟨-, hrsvd, -⟩ := (legalWord_iff c).1 h
  simpa [pairWord, fieldPair] using (cmd_eq_cmdWord c hrsvd).symm

theorem fieldPair_pairWord {p : Σ _ : Nat, Nat} (h : p ∈ legalPairs) : fieldPair (pairWord p) = p := by
  obtain ⟨hop, hidx⟩ := mem_legalPairs.1 h
  have hlast := lastIndex_lt p.1
  simp [pairWord, fieldPair, Nat.mod_eq_of_lt (show p.1 < 16 by omega), Nat.mod_eq_of_lt (show p.2 < 64 by omega)]

theorem fieldPair_mem {c : Cmd} (h : legalWord c = true) : fieldPair c ∈ legalPairs := by
  obtain ⟨hop, -, hidx⟩ := (legalWord_iff c).1 h
  exact mem_legalPairs.2 ⟨hop, hidx⟩

theorem legalWord_pairWord {p : Σ _ : Nat, Nat} (h : p ∈ legalPairs) : legalWord (pairWord p) = true := by
  have hfields : fieldPair (pairWord p) ∈ legalPairs := (fieldPair_pairWord h).symm ▸ h
  obtain ⟨hop, hidx⟩ := mem_legalPairs.1 hfields
  exact (legalWord_iff _).2 ⟨hop, by simp [pairWord], hidx⟩

/-- The legal words are in bijection with the pairs of an opcode and one of its legal indices. -/
theorem card_legalWord :
    (Finset.univ.filter fun n : Fin 65536 => legalWord (BitVec.ofNat 16 n.val) = true).card = legalPairs.card := by
  refine Finset.card_nbij' (fun n => fieldPair (BitVec.ofNat 16 n.val)) (fun p => (pairWord p).toFin) ?_ ?_ ?_ ?_
  · intro n hn
    exact fieldPair_mem (by simpa using hn)
  · intro p hp
    simpa using legalWord_pairWord hp
  · intro n hn
    calc (pairWord (fieldPair (BitVec.ofNat 16 n.val))).toFin
      _ = (BitVec.ofNat 16 n.val).toFin := congrArg _ (pairWord_fieldPair (by simpa using hn))
      _ = n := by simp
  · intro p hp
    simpa using fieldPair_pairWord hp

/-- Settles O6: the fields decide legality, and the legal words are counted opcode by opcode. -/
theorem legalWordCount : Obligations.LegalWordCount := by
  refine ⟨fun op idx v => ?_, fun c v hne hlegal => ?_, card_legalWord.trans card_legalPairs⟩
  · rw [decode_cmdWord_legal_iff]
    exact and_congr_right fun hop => le_lastIndex_iff hop idx
  · obtain ⟨-, hrsvd, -⟩ := (decode_legal_iff _).1 hlegal
    exact hne hrsvd

end Sys2Proof
end

