-- ==== Sys2Proof/Proofs/Operators.lean ====
section
/-! SUPPORT. The datapath operators of spec/40_operators.md bit by bit and as sums, and the statements about them. -/

namespace Sys2Proof.Machine

/-! ## Rotation and shift -/

theorem rotr_zero (n : Nat) (h : 1 ≤ n ∧ n ≤ 31) : rotr 0 n h = 0 := by
  refine BitVec.eq_of_getLsbD_eq fun b hb => ?_
  rw [rotr_getLsbD _ _ _ _ hb, BitVec.ofNat_eq_ofNat, BitVec.getLsbD_zero, BitVec.getLsbD_zero]

theorem rotr_ones (n : Nat) (h : 1 ≤ n ∧ n ≤ 31) : rotr 0xFFFFFFFF n h = 0xFFFFFFFF := by
  have hbit (i : Nat) (hi : i < 32) : (0xFFFFFFFF : Word).getLsbD i = true := by
    rw [show (0xFFFFFFFF : Word) = BitVec.allOnes 32 from rfl, BitVec.getLsbD_allOnes, decide_eq_true hi]
  refine BitVec.eq_of_getLsbD_eq fun b hb => ?_
  rw [rotr_getLsbD _ _ _ _ hb, hbit _ (Nat.mod_lt _ (by decide)), hbit b hb]

/-- Bit b of a logical right shift by n is bit b + n, which is 0 above bit 31 (R81). -/
theorem shr_getLsbD (x : Word) (n b : Nat) :
    (shr x n).getLsbD b = if b + n ≤ 31 then x.getLsbD (b + n) else false := by
  rw [shr, BitVec.getLsbD_ushiftRight, Nat.add_comm n b]
  split
  · rfl
  · exact BitVec.getLsbD_of_ge x _ (by omega)

/-- Settles O10: the bits come from those of the two shifts, and a rotation of equal bits changes nothing. -/
theorem rotrMovesEveryBit : Obligations.RotrMovesEveryBit :=
  ⟨fun x n h => ⟨rotr_getLsbD x n h, rfl, rotr_zero n h, rotr_ones n h⟩, by decide⟩

/-- Settles O11, bit by bit. -/
theorem shrFillsWithZeros : Obligations.ShrFillsWithZeros :=
  ⟨fun x n b _ => shr_getLsbD x n b, by decide⟩

/-! ## Addition -/

/-- add32 is the sum in the ring of words, whose addition is modulo 2^32 (R82). -/
theorem add32_eq_sum (xs : List Word) : add32 xs = xs.sum := by
  induction xs with
  | nil => rfl
  | cons x xs ih => rw [add32_cons, ih, List.sum_cons]

theorem add32_append (xs ys : List Word) : add32 (xs ++ ys) = add32 xs + add32 ys := by
  simp only [add32_eq_sum, List.sum_append]

theorem add32_pair (x y : Word) : add32 [x, y] = x + y := by
  simp [add32_cons]

theorem add32_perm {xs ys : List Word} (h : xs.Perm ys) : add32 xs = add32 ys := by
  rw [add32_eq_sum, add32_eq_sum, h.sum_eq]

/-- Settles O12: grouping and order do not matter because words under addition are a commutative monoid. -/
theorem addIsModularInAnyGrouping : Obligations.AddIsModularInAnyGrouping :=
  ⟨add32_toNat, fun xs ys => by rw [add32_append, add32_pair], fun _ _ => add32_perm, by decide⟩

/-! ## Byte reversal -/

/-- Byte k of the reversed word is byte 3 - k (R83). -/
theorem bswap32_byte (x : Word) {k b : Nat} (hk : k < 4) (hb : b < 8) :
    (bswap32 x).getLsbD (8 * k + b) = x.getLsbD (8 * (3 - k) + b) := by
  simp only [bswap32, BitVec.getLsbD_append, BitVec.getLsbD_extractLsb', Nat.sub_sub]
  interval_cases k
  · simp [hb]
  · simp [hb]
  · simp [hb, show ¬ 16 + b < 8 by omega, show ¬ 16 + b - 8 < 8 by omega]
  · simp [hb, show ¬ 24 + b < 8 by omega, show ¬ 24 + b - 8 < 8 by omega, show ¬ 24 + b - 16 < 8 by omega]

/-- Reversing twice restores each byte: 3 - (3 - k) = k. -/
theorem bswap32_bswap32 (x : Word) : bswap32 (bswap32 x) = x := by
  refine BitVec.eq_of_getLsbD_eq fun i hi => ?_
  have hk : i / 8 < 4 := by omega
  have hb : i % 8 < 8 := Nat.mod_lt _ (by decide)
  calc (bswap32 (bswap32 x)).getLsbD i
    _ = (bswap32 (bswap32 x)).getLsbD (8 * (i / 8) + i % 8) := by rw [Nat.div_add_mod]
    _ = (bswap32 x).getLsbD (8 * (3 - i / 8) + i % 8) := bswap32_byte _ hk hb
    _ = x.getLsbD (8 * (3 - (3 - i / 8)) + i % 8) := bswap32_byte _ (by omega) hb
    _ = x.getLsbD i := by rw [Nat.sub_sub_self (by omega), Nat.div_add_mod]

/-- Settles O13, byte by byte. -/
theorem bswapReversesTheBytes : Obligations.BswapReversesTheBytes :=
  ⟨fun x _ _ => bswap32_byte x, bswap32_bswap32, by decide⟩

/-! ## The sigma functions -/

theorem sigma0_getLsbD (x : Word) {b : Nat} (hb : b < 32) : (sigma0 x).getLsbD b =
    (x.getLsbD ((b + 7) % 32) ^^ x.getLsbD ((b + 18) % 32) ^^ (decide (b + 3 ≤ 31) && x.getLsbD (b + 3))) := by
  simp only [sigma0, BitVec.getLsbD_xor, rotr_getLsbD _ _ _ _ hb, shr_getLsbD, Bool.if_false_right]

theorem sigma1_getLsbD (x : Word) {b : Nat} (hb : b < 32) : (sigma1 x).getLsbD b =
    (x.getLsbD ((b + 17) % 32) ^^ x.getLsbD ((b + 19) % 32) ^^ (decide (b + 10 ≤ 31) && x.getLsbD (b + 10))) := by
  simp only [sigma1, BitVec.getLsbD_xor, rotr_getLsbD _ _ _ _ hb, shr_getLsbD, Bool.if_false_right]

theorem Sigma0_getLsbD (x : Word) {b : Nat} (hb : b < 32) : (Sigma0 x).getLsbD b =
    (x.getLsbD ((b + 2) % 32) ^^ x.getLsbD ((b + 13) % 32) ^^ x.getLsbD ((b + 22) % 32)) := by
  simp only [Sigma0, BitVec.getLsbD_xor, rotr_getLsbD _ _ _ _ hb]

theorem Sigma1_getLsbD (x : Word) {b : Nat} (hb : b < 32) : (Sigma1 x).getLsbD b =
    (x.getLsbD ((b + 6) % 32) ^^ x.getLsbD ((b + 11) % 32) ^^ x.getLsbD ((b + 25) % 32)) := by
  simp only [Sigma1, BitVec.getLsbD_xor, rotr_getLsbD _ _ _ _ hb]

/-- Settles O14: each bit is the exclusive or of the bits of the rotations and the shift. -/
theorem sigmaFunctionsBitByBit : Obligations.SigmaFunctionsBitByBit :=
  fun x _ hb => ⟨sigma0_getLsbD x hb, sigma1_getLsbD x hb, Sigma0_getLsbD x hb, Sigma1_getLsbD x hb⟩

/-! ## Choose and majority -/

/-- Choose selects by e's bit (R88). -/
theorem Ch_getLsbD (e f g : Word) (n : Nat) :
    (Ch e f g).getLsbD n = if e.getLsbD n then f.getLsbD n else g.getLsbD n := by
  simp only [Ch, BitVec.getLsbD_xor, BitVec.getLsbD_and]
  cases e.getLsbD n
  · simp
  · cases g.getLsbD n <;> simp

/-- Majority of three bits: at least two are 1 (R89). -/
theorem Maj_getLsbD (a b c : Word) (n : Nat) : (Maj a b c).getLsbD n =
    decide (2 ≤ (a.getLsbD n).toNat + (b.getLsbD n).toNat + (c.getLsbD n).toNat) := by
  simp only [Maj, BitVec.getLsbD_or, BitVec.getLsbD_and]
  generalize a.getLsbD n = p, b.getLsbD n = q, c.getLsbD n = r
  revert p q r
  decide

/-- R92's form of Ch: one of its two terms is 0 in each bit. -/
theorem Ch_eq_xor (e f g : Word) : Ch e f g = (e &&& f) ^^^ (~~~e &&& g) := by
  refine BitVec.eq_of_getLsbD_eq fun n hn => ?_
  simp only [Ch_getLsbD, BitVec.getLsbD_xor, BitVec.getLsbD_and, BitVec.getLsbD_not, hn]
  cases e.getLsbD n <;> simp

/-- R92's form of Maj, over the 8 combinations of input bits. -/
theorem Maj_eq_xor (a b c : Word) : Maj a b c = (a &&& b) ^^^ (a &&& c) ^^^ (b &&& c) := by
  refine BitVec.eq_of_getLsbD_eq fun n _ => ?_
  simp only [Maj_getLsbD, BitVec.getLsbD_xor, BitVec.getLsbD_and]
  generalize a.getLsbD n = p, b.getLsbD n = q, c.getLsbD n = r
  revert p q r
  decide

/-- Settles O15, bit by bit. -/
theorem chooseAndMajority : Obligations.ChooseAndMajority :=
  fun a b c => ⟨Ch_getLsbD a b c, Maj_getLsbD a b c, Ch_eq_xor a b c, Maj_eq_xor a b c⟩

end Sys2Proof.Machine
end

