-- ==== Sys2Proof/Proofs/RoundEngine.lean ====
section
/-! SUPPORT. The constants of the ROM as cube roots of primes, the binding of roles, the values ROUND(i) writes, and the
shifting form of the rounds (spec/42_round_engine.md), with the statements about them. -/

namespace Sys2Proof.Machine

/-! ## Constant ROM -/

/-- The primes up to 311, in increasing order (R121): constant i comes from element i. -/
def romPrimes : Vector Nat 64 := #v[
  2, 3, 5, 7, 11, 13, 17, 19, 23, 29, 31, 37, 41, 43, 47, 53, 59, 61, 67, 71, 73, 79, 83, 89, 97, 101, 103, 107, 109, 113,
  127, 131, 137, 139, 149, 151, 157, 163, 167, 173, 179, 181, 191, 193, 197, 199, 211, 223, 227, 229, 233, 239, 241, 251,
  257, 263, 269, 271, 277, 281, 283, 293, 307, 311]

theorem length_filter_range (p : Nat → Prop) [DecidablePred p] (N : Nat) :
    ((List.range N).filter p).length = Nat.count p N :=
  List.countP_eq_length_filter.symm

/-- The numbers below N that satisfy p, in increasing order, are the first that satisfy p at all. -/
theorem nth_eq_getElem_filter_range (p : Nat → Prop) [DecidablePred p] (N i : Nat)
    (hi : i < ((List.range N).filter p).length) : Nat.nth p i = ((List.range N).filter p)[i] := by
  induction N with
  | zero => cases hi
  | succ N ih =>
    by_cases hlow : i < ((List.range N).filter p).length
    · simp only [List.range_succ, List.filter_append, List.getElem_append_left hlow, ih hlow]
    · have hcount : i < Nat.count p N + if p N then 1 else 0 := by
        rwa [length_filter_range, Nat.count_succ] at hi
      rw [length_filter_range] at hlow
      have hN : p N := by
        by_contra hN
        rw [if_neg hN] at hcount
        exact hlow hcount
      obtain rfl : i = Nat.count p N := by
        rw [if_pos hN] at hcount
        omega
      simp [List.range_succ, hN, length_filter_range, Nat.nth_count hN]

theorem filter_prime_range : (List.range 312).filter Nat.Prime = romPrimes.toList := by
  decide +kernel

theorem nth_prime_eq_romPrimes (i : Nat) (hi : i < 64) : Nat.nth Nat.Prime i = romPrimes[i] := by
  have hlen : ((List.range 312).filter Nat.Prime).length = 64 := by rw [filter_prime_range]; rfl
  rw [nth_eq_getElem_filter_range Nat.Prime 312 i (by omega)]
  simp [filter_prime_range]

/-- K[i], below some integer part q, is the cube root of element i scaled by 2^32 and rounded down (R121). -/
theorem romK_cube_bounds : ∀ i : Fin 64, ∃ q : Fin 7,
    (q.val * 2 ^ 32 + romK[i].toNat) ^ 3 ≤ romPrimes[i] * 2 ^ 96 ∧
    romPrimes[i] * 2 ^ 96 < (q.val * 2 ^ 32 + romK[i].toNat + 1) ^ 3 := by
  decide

/-- Settles O20: the integer part of the root is below 7, and its 32 fraction bits are K[i]. -/
theorem romHoldsTheCubeRoots : Obligations.RomHoldsTheCubeRoots := by
  intro i hi
  obtain ⟨q, hle, hlt⟩ := romK_cube_bounds ⟨i, hi⟩
  rw [nth_prime_eq_romPrimes i hi]
  refine ⟨_, hle, hlt, ?_⟩
  have hmod := Nat.mul_add_mod' q.val (2 ^ 32) romK[i].toNat
  exact (hmod.trans (Nat.mod_eq_of_lt romK[i].isLt)).symm

/-! ## Binding of roles -/

/-- The role with a given number. -/
def Role.ofNum (j : Fin 8) : Role := (#v[.A, .B, .C, .D, .E, .F, .G, .H] : Vector Role 8)[j]

@[simp] theorem Role.num_ofNum (j : Fin 8) : (Role.ofNum j).num = j := by
  revert j
  decide

@[simp] theorem Role.ofNum_num (r : Role) : Role.ofNum r.num = r := by
  cases r <;> rfl

theorem Role.num_injective : Function.Injective Role.num :=
  Function.LeftInverse.injective Role.ofNum_num

/-- The role before r, and H before A. -/
def Role.prev (r : Role) : Role := .ofNum (r.num - 1)

theorem Role.prev_eq_D_iff {r : Role} : r.prev = .D ↔ r = .E := by
  cases r <;> decide

theorem Role.prev_eq_H_iff {r : Role} : r.prev = .H ↔ r = .A := by
  cases r <;> decide

@[simp] theorem binding_zero (r : Role) : binding r 0 = r.num :=
  sub_zero r.num

/-- The binding repeats every 8 rounds. -/
theorem binding_congr (r : Role) {i j : Nat} (h : i % 8 = j % 8) : binding r i = binding r j :=
  congrArg (r.num - ·) (Fin.ext h)

/-- After round 63 every role is bound to its own number again. -/
theorem binding_sixtyFour (r : Role) : binding r 64 = r.num :=
  (binding_congr r (show 64 % 8 = 0 % 8 from rfl)).trans (binding_zero r)

/-- The binding moves down by one variable per round (R126). -/
theorem binding_succ (r : Role) (i : Nat) : binding r (i + 1) = binding r i - 1 := by
  have hofNat : Fin.ofNat 8 (i + 1) = Fin.ofNat 8 i + 1 := Fin.ext (Nat.add_mod i 1 8)
  rw [binding, binding, hofNat, sub_sub]

/-- The variable of a role in the next round is this round's variable of the role before it. -/
theorem binding_succ_eq_prev (r : Role) (i : Nat) : binding r (i + 1) = binding r.prev i := by
  rw [binding_succ, binding, binding, Role.prev, Role.num_ofNum, sub_right_comm]

/-- The bound variable, moved up by the round number, is the role's own (R124). -/
theorem binding_add_mod (r : Role) (i : Nat) : ((binding r i).val + i) % 8 = r.num.val := by
  have hnum := r.num.isLt
  simp only [binding, Fin.sub_def, Fin.ofNat]
  omega

/-- In every round the eight roles are bound to eight different variables. -/
theorem binding_inj {r r' : Role} {i : Nat} : binding r i = binding r' i ↔ r = r' := by
  rw [binding, binding, sub_left_inj, Role.num_injective.eq_iff]

/-- Settles O21: the binding depends on the round number modulo 8 alone, and 64 is a multiple of 8. -/
theorem roleBindingRotates : Obligations.RoleBindingRotates := by
  refine ⟨binding_add_mod, fun r i => ?_, binding_zero, binding_sixtyFour, by decide⟩
  exact binding_congr r (Nat.add_mod_right i 8)

/-! ## The values a round writes -/

section
variable (i : Nat) (k w : Word) (v : Vector Word 8)

/-- H' of R125. -/
theorem roundVars_H : (roundVars i k w v)[binding .H i] =
    add32 [roundT1 v[binding .E i] v[binding .F i] v[binding .G i] v[binding .H i] k w, Sigma0 v[binding .A i],
      Maj v[binding .A i] v[binding .B i] v[binding .C i]] :=
  Vector.getElem_set_self _

/-- D' of R125: the later write to the variable of H does not reach it. -/
theorem roundVars_D : (roundVars i k w v)[binding .D i] =
    add32 [v[binding .D i], roundT1 v[binding .E i] v[binding .F i] v[binding .G i] v[binding .H i] k w] :=
  (Vector.getElem_set_ne (binding .H i).isLt _ (binding_D_ne_H i).symm).trans (Vector.getElem_set_self _)

theorem roundVars_keeps {j : Fin 8} (hD : j ≠ binding .D i) (hH : j ≠ binding .H i) : (roundVars i k w v)[j] = v[j] :=
  roundVars_other i k w v j j.isLt (Fin.val_ne_of_ne hD) (Fin.val_ne_of_ne hH)

/-- The variable of a role other than D and H keeps its value (R126). -/
theorem roundVars_role {r : Role} (hD : r ≠ .D) (hH : r ≠ .H) : (roundVars i k w v)[binding r i] = v[binding r i] :=
  roundVars_keeps i k w v (mt binding_inj.1 hD) (mt binding_inj.1 hH)

end

/-- T1 of R125 as a sum of words. -/
theorem roundT1_eq (e f g h k w : Word) : roundT1 e f g h k w = h + Sigma1 e + Ch e f g + k + w := by
  simp only [roundT1, add32_eq_sum, List.sum_cons, List.sum_nil, add_zero, add_assoc]

/-- Settles O22: the round's sums are additions of words. -/
theorem roundWritesTwoVariables : Obligations.RoundWritesTwoVariables := by
  intro i k w v
  refine ⟨?_, ?_, fun j => roundVars_keeps i k w v, fun r => binding_succ r i⟩
  · rw [roundVars_D, add32_pair, roundT1_eq]
  · rw [roundVars_H, add32_cons, add32_pair, roundT1_eq, ← add_assoc]

/-! ## The shifting form -/

section
variable (k w : Word) (s : Vector Word 8)

/-- A shift fills the register of A with the value a round writes to the variable of H. -/
theorem shiftRound_A : (shiftRound k w s)[Role.A.num] =
    add32 [roundT1 s[Role.E.num] s[Role.F.num] s[Role.G.num] s[Role.H.num] k w, Sigma0 s[Role.A.num],
      Maj s[Role.A.num] s[Role.B.num] s[Role.C.num]] := rfl

/-- A shift fills the register of E with the value a round writes to the variable of D. -/
theorem shiftRound_E : (shiftRound k w s)[Role.E.num] =
    add32 [s[Role.D.num], roundT1 s[Role.E.num] s[Role.F.num] s[Role.G.num] s[Role.H.num] k w] := rfl

/-- The other registers take the value of the role before. -/
theorem shiftRound_role {r : Role} (hA : r ≠ .A) (hE : r ≠ .E) : (shiftRound k w s)[r.num] = s[r.prev.num] := by
  cases r with
  | A => exact absurd rfl hA
  | E => exact absurd rfl hE
  | _ => rfl

end

/-- A shift follows a round: where a value moves to the next register, the binding moves to that role instead (R127). -/
theorem shiftRound_eq_roundVars {i : Nat} {s v : Vector Word 8} (h : ∀ r : Role, s[r.num] = v[binding r i])
    (k w : Word) (r : Role) : (shiftRound k w s)[r.num] = (roundVars i k w v)[binding r (i + 1)] := by
  simp only [binding_succ_eq_prev]
  by_cases hA : r = .A
  · subst hA
    simp only [shiftRound_A, h]
    exact (roundVars_H i k w v).symm
  by_cases hE : r = .E
  · subst hE
    simp only [shiftRound_E, h]
    exact (roundVars_D i k w v).symm
  · rw [shiftRound_role k w s hA hE, h, roundVars_role i k w v (mt Role.prev_eq_D_iff.1 hE) (mt Role.prev_eq_H_iff.1 hA)]

/-- After n rounds the register of a role holds the variable bound to it (R127). -/
theorem shiftRoundsUpTo_eq_roundsUpTo (ws : Vector Word 64) (v : Vector Word 8) {n : Nat} (hn : n ≤ 64) (r : Role) :
    (shiftRoundsUpTo ws v n)[r.num] = (roundsUpTo ws v n)[binding r n] := by
  induction n generalizing r with
  | zero => simp [shiftRoundsUpTo, roundsUpTo]
  | succ n ih =>
    have hlt : n < 64 := hn
    simp only [shiftRoundsUpTo, roundsUpTo, hlt, dif_pos]
    exact shiftRound_eq_roundVars (ih hlt.le) _ _ r

/-- Settles O23, by induction on the rounds; after 64 of them every role is bound to the variable of its own number. -/
theorem shiftingFormAgrees : Obligations.ShiftingFormAgrees := by
  intro ws v
  refine ⟨fun n r hn => shiftRoundsUpTo_eq_roundsUpTo ws v hn r, Vector.ext fun j hj => ?_⟩
  have hrole := shiftRoundsUpTo_eq_roundsUpTo ws v (le_refl 64) (.ofNum ⟨j, hj⟩)
  simpa only [binding_sixtyFour, Role.num_ofNum, Fin.getElem_fin] using hrole

end Sys2Proof.Machine
end

