-- ==== Sys2Proof/Proofs/Sequencer.lean ====
section
/-! SUPPORT. The effect of START and of CORE's steps (spec/43_sequencer.md R151 to R153), what decides between those steps
(R158), and the statements about them. -/

namespace Sys2Proof.Machine

/-! ## START -/

/-- Word 0x6000 is opcode 6 with index 0. -/
theorem decode_start (v : Word) : decode ⟨0x6000, v⟩ = .legal .start :=
  decode_cmdWord 6 0 v (by decide)

/-- START is held while BUSY (R171). -/
theorem exec_start_of_busy {s : State} (h : s.busy = true) : exec .start s = .next s :=
  if_pos h

/-- In IDLE, with every input written, START is INIT and its acceptance (R177). -/
theorem exec_start_of_allWritten {s : State} (hb : s.busy = false) (hw : s.allWritten) :
    exec .start s = .next (s.init.accept 0) := by
  simp [exec, execStart, hb, State.firstUnwritten_eq_none_iff.2 hw]

/-- Settles O44: INIT takes W from LOADW, which writes the first sixteen words and no other. -/
theorem startPerformsInit : Obligations.StartPerformsInit :=
  ⟨decode_start, fun _ => exec_start_of_busy, fun s hb hw =>
    ⟨loadw s.m s.w, loadw_low s.m s.w, fun j hj h16 => loadw_high s.m s.w j h16 hj, exec_start_of_allWritten hb hw⟩⟩

/-! ## The round step -/

theorem coreStep_of_round {s : State} (hp : s.phase = .round) (hr : s.rnd.val < 64) :
    coreStep s = .next (s.roundStep hr) := by
  simp only [coreStep, hp, dif_pos hr]

/-- Round step i changes no word but W[i], and below 16 not even that one (R102, R152). -/
theorem scheduleAt_keeps {i j : Nat} (w : Vector Word 64) (hj : j < 64) (h : j ≠ i ∨ i < 16) :
    (scheduleAt i w)[j] = w[j] := by
  obtain hne | hlow := h
  · exact scheduleAt_other i w j hj hne
  · rw [scheduleAt_low i w hlow]

/-- Settles O24: the next state is that of ROUND_STEP, whose W is the schedule after SCHED(i). -/
theorem roundStepEffect : Obligations.RoundStepEffect := by
  intro s hi hp
  refine ⟨s.roundStep hi, coreStep_of_round hp hi, ?_, ?_, rfl, rfl, fun h => if_pos h, fun h => if_neg h, rfl⟩
  · exact fun h16 => scheduleAt_self s.rnd.val s.w ⟨h16, hi⟩
  · exact fun _ hj => scheduleAt_keeps s.w hj

/-! ## The fold step -/

theorem coreStep_of_fold {s : State} (hp : s.phase = .fold) : coreStep s = .next s.foldStep := by
  simp only [coreStep, hp]

/-- FOLD adds word by word, modulo 2^32 (R128). -/
theorem foldWords_getElem (h v : Vector Word 8) (k : Fin 8) : (foldWords h v)[k] = h[k] + v[k] := by
  simp [foldWords, add32_pair]

/-- Settles O25: the next state is that of FOLD_STEP, which keeps the written flags. -/
theorem foldStepEffect : Obligations.FoldStepEffect :=
  fun s hp => ⟨s.foldStep, coreStep_of_fold hp, foldWords_getElem s.h s.v, rfl, fun _ => id⟩

/-! ## Control flow -/

/-- The phase and the round counter after a core step, from those before it: no data register is read. -/
def controlAfter : Phase → Nat → Phase × Nat
  | .idle, rnd => (.idle, rnd)
  | .round, rnd => (if rnd = 63 then .fold else .round, rnd + 1)
  | .fold, rnd => (.idle, rnd)

theorem coreStep_control {s t : State} (h : coreStep s = .next t) :
    (t.phase, t.rnd.val) = controlAfter s.phase s.rnd.val := by
  obtain ⟨hp, rfl⟩ | ⟨hp, hr, rfl⟩ | ⟨hp, rfl⟩ := coreStep_cases h <;> simp [controlAfter, hp]

/-- A core step answers a next state unless it is a round step with no round left. -/
theorem exists_coreStep_iff {s : State} : (∃ t, coreStep s = .next t) ↔ (s.phase = .round → s.rnd.val < 64) := by
  unfold coreStep
  cases s.phase with
  | idle => simp
  | round => by_cases hr : s.rnd.val < 64 <;> simp [hr]
  | fold => simp

/-- Settles O35: phase and rnd decide whether there is a next state, and its phase and rnd. -/
theorem controlFlowIgnoresData : Obligations.ControlFlowIgnoresData := by
  intro s t hphase hrnd
  refine ⟨?_, fun s' t' hs ht => ?_⟩
  · rw [exists_coreStep_iff, exists_coreStep_iff, hphase, hrnd]
  · have hcontrol : (s'.phase, s'.rnd.val) = (t'.phase, t'.rnd.val) := by
      rw [coreStep_control hs, coreStep_control ht, hphase, hrnd]
    exact ⟨congrArg Prod.fst hcontrol, Fin.ext (congrArg Prod.snd hcontrol)⟩

end Sys2Proof.Machine
end

