-- ==== Sys2Proof/Proofs/HostCommands.lean ====
section
/-! SUPPORT. The words of the host commands that do not start a compression (spec/44_host_commands.md R172 to R176 and R178
to R180), their effects, and the statements about them. -/

namespace Sys2Proof

/-! ## Words -/

theorem ranged_of_le {last : Nat} {idx : Idx} (h : idx.toNat ≤ last) (i : Instr) : ranged last idx i = .legal i :=
  if_pos h

theorem ranged_of_lt {last : Nat} {idx : Idx} (h : last < idx.toNat) (i : Instr) :
    ranged last idx i = .illegal .badIndex :=
  if_neg (Nat.not_le.2 h)

/-- R173 to R178 give an indexed command's word as a constant with OP in bits 15:12, `|` the index: RSVD is 0. -/
theorem or_setWidth_eq_cmdWord (op : BitVec 4) (idx : Idx) :
    op.setWidth 16 <<< 12 ||| idx.setWidth 16 = cmdWord op idx := by
  revert op idx; decide +kernel

theorem decode_or_setWidth (op : BitVec 4) (hop : op.toNat ≤ 8) (idx : Idx) (v : Word) :
    decode ⟨op.setWidth 16 <<< 12 ||| idx.setWidth 16, v⟩ = decodeOp op.toNat idx v := by
  rw [or_setWidth_eq_cmdWord, decode_cmdWord op idx v hop]

theorem decode_wrH_word (idx : Idx) (x : Word) :
    decode ⟨0x1000 ||| idx.setWidth 16, x⟩ = ranged 7 idx (.wrH idx x) :=
  decode_or_setWidth 1 (by decide) idx x

theorem decode_wrM_word (idx : Idx) (x : Word) :
    decode ⟨0x2000 ||| idx.setWidth 16, x⟩ = ranged 15 idx (.wrM idx x) :=
  decode_or_setWidth 2 (by decide) idx x

theorem decode_rdH_word (idx : Idx) (v : Word) : decode ⟨0x3000 ||| idx.setWidth 16, v⟩ = ranged 7 idx (.rdH idx) :=
  decode_or_setWidth 3 (by decide) idx v

theorem decode_rdM_word (idx : Idx) (v : Word) : decode ⟨0x4000 ||| idx.setWidth 16, v⟩ = ranged 15 idx (.rdM idx) :=
  decode_or_setWidth 4 (by decide) idx v

theorem decode_rdK_word (idx : Idx) (v : Word) : decode ⟨0x5000 ||| idx.setWidth 16, v⟩ = .legal (.rdK idx) :=
  decode_or_setWidth 5 (by decide) idx v

theorem decode_nop_word (v : Word) : decode ⟨0x0000, v⟩ = .legal .nop :=
  decode_cmdWord 0 0 v (by decide)

theorem decode_rdStatus_word (v : Word) : decode ⟨0x7000, v⟩ = .legal .rdStatus :=
  decode_cmdWord 7 0 v (by decide)

theorem decode_clrErr_word (v : Word) : decode ⟨0x8000, v⟩ = .legal .clrErr :=
  decode_cmdWord 8 0 v (by decide)

/-- Opcode 0 has one legal word: any other bit set is cause 2 or cause 3 (R68, R203). -/
theorem decode_op_zero_illegal {c : Cmd} (v : Word) (hop : opField c = 0) (h : rsvdField c ≠ 0 ∨ idxField c ≠ 0) :
    ∃ cause, decode ⟨c, v⟩ = .illegal cause := by
  have hle : (opField c).toNat ≤ 8 := by simp [hop]
  by_cases hr : rsvdField c = 0
  · have hidx : 0 < (idxField c).toNat := by
      have hne : idxField c ≠ 0 := h.resolve_left (not_not_intro hr)
      bv_omega
    have hdec : decode ⟨c, v⟩ = ranged 0 (idxField c) .nop := by simp [decode_fields, hop, hr, decodeOp]
    exact ⟨.badIndex, hdec.trans (ranged_of_lt hidx _)⟩
  · exact ⟨.reservedBits, decode_reservedBits hle hr⟩

end Sys2Proof

namespace Sys2Proof.Machine

variable {s : State} {idx : Idx}

/-! ## Effects -/

/-- A held command of R171 changes nothing while BUSY, and HOST waits with it. -/
theorem exec_of_held {i : Instr} (hi : heldCommand i = true) (hwf : i.wf = true) (hb : s.busy = true) :
    exec i s = .next s := by
  have lt8 {idx : Idx} (h : decide (idx.toNat ≤ 7) = true) : idx.toNat < 8 := Nat.lt_succ_of_le (of_decide_eq_true h)
  have lt16 {idx : Idx} (h : decide (idx.toNat ≤ 15) = true) : idx.toNat < 16 := Nat.lt_succ_of_le (of_decide_eq_true h)
  cases i with
  | wrH idx x => simp [exec, execWrH, hIndex_of_lt (lt8 hwf), hb]
  | wrM idx x => simp [exec, execWrM, mIndex_of_lt (lt16 hwf), hb]
  | rdH idx => simp [exec, execRdH, hIndex_of_lt (lt8 hwf), hb]
  | rdM idx => simp [exec, execRdM, mIndex_of_lt (lt16 hwf), hb]
  | start => exact exec_start_of_busy hb
  | nop | rdK | rdStatus | clrErr => simp [heldCommand] at hi

theorem exec_wrH_of_idle (hi : idx.toNat < 8) (hb : s.busy = false) (x : Word) :
    exec (.wrH idx x) s = .next ((s.writeH ⟨idx.toNat, hi⟩ x).accept 0) := by
  simp [exec, execWrH, hIndex_of_lt hi, hb]

theorem exec_wrM_of_idle (hi : idx.toNat < 16) (hb : s.busy = false) (x : Word) :
    exec (.wrM idx x) s = .next ((s.writeM ⟨idx.toNat, hi⟩ x).accept 0) := by
  simp [exec, execWrM, mIndex_of_lt hi, hb]

theorem exec_rdH_of_written (hi : idx.toNat < 8) (hb : s.busy = false) (hw : s.hWritten[idx.toNat] = true) :
    exec (.rdH idx) s = .next (s.accept s.h[idx.toNat]) := by
  simp [exec, execRdH, hIndex_of_lt hi, hb, State.readH, hw]

theorem exec_rdH_of_unwritten (hi : idx.toNat < 8) (hb : s.busy = false) (hw : s.hWritten[idx.toNat] = false) :
    exec (.rdH idx) s = .fault (.unwrittenRead (.h ⟨idx.toNat, hi⟩)) := by
  simp [exec, execRdH, hIndex_of_lt hi, hb, State.readH, hw]

theorem exec_rdM_of_written (hi : idx.toNat < 16) (hb : s.busy = false) (hw : s.mWritten[idx.toNat] = true) :
    exec (.rdM idx) s = .next (s.accept s.m[idx.toNat]) := by
  simp [exec, execRdM, mIndex_of_lt hi, hb, State.readM, hw]

theorem exec_rdM_of_unwritten (hi : idx.toNat < 16) (hb : s.busy = false) (hw : s.mWritten[idx.toNat] = false) :
    exec (.rdM idx) s = .fault (.unwrittenRead (.m ⟨idx.toNat, hi⟩)) := by
  simp [exec, execRdM, mIndex_of_lt hi, hb, State.readM, hw]

/-! NOP, RD_K, RD_STATUS and CLR_ERR are never held and never fault (R172, R178 to R180). -/

theorem exec_nop (s : State) : exec .nop s = .next (s.accept 0) := rfl
theorem exec_rdK (idx : Idx) (s : State) : exec (.rdK idx) s = .next (s.accept romK[(kIndex idx).val]) := rfl
theorem exec_rdStatus (s : State) : exec .rdStatus s = .next (s.accept s.status) := rfl
theorem exec_clrErr (s : State) : exec .clrErr s = .next (s.clearErr.accept 0) := rfl

theorem State.busy_eq_decide (s : State) : s.busy = decide (s.phase ≠ .idle) := by
  unfold State.busy; cases s.phase <;> rfl

/-- STATUS as R179 concatenates it, BUSY by the phase (R155). -/
theorem State.status_eq (s : State) :
    s.status = (0 : BitVec 26) ++ s.cause ++ (0 : BitVec 1) ++ BitVec.ofBool s.err ++
      BitVec.ofBool s.done ++ BitVec.ofBool (decide (s.phase ≠ .idle)) := by
  rw [State.status, State.busy_eq_decide]

/-! ## The statements -/

/-- Settles O38: NOP is opcode 0 with index 0, and its effect is its acceptance. -/
theorem nopReturnsZero : Obligations.NopReturnsZero :=
  ⟨decode_nop_word, fun _ v => decode_op_zero_illegal v, exec_nop⟩

/-- Settles O39: WR_H is held while BUSY, and in IDLE it is the write of one element and its acceptance. -/
theorem wrHWritesOneElement : Obligations.WrHWritesOneElement := by
  refine ⟨fun idx x h => ?_, fun idx x h => ?_, fun idx x s h hb => ?_, fun idx x s hi hb => exec_wrH_of_idle hi hb x⟩
  · rw [decode_wrH_word, ranged_of_le h]
  · rw [decode_wrH_word, ranged_of_lt h]
  · exact exec_of_held rfl (decide_eq_true (Nat.le_of_lt_succ h)) hb

/-- Settles O40: WR_M is held while BUSY, and in IDLE it is the write of one element, the value unchanged, and its
acceptance. -/
theorem wrMWritesOneElement : Obligations.WrMWritesOneElement := by
  refine ⟨fun idx x h => ?_, fun idx x h => ?_, fun idx x s h hb => ?_, fun idx x s hi hb => exec_wrM_of_idle hi hb x⟩
  · rw [decode_wrM_word, ranged_of_le h]
  · rw [decode_wrM_word, ranged_of_lt h]
  · exact exec_of_held rfl (decide_eq_true (Nat.le_of_lt_succ h)) hb

/-- Settles O41: RD_H is held while BUSY, and in IDLE the written flag of the element decides between its value and the
fault. -/
theorem rdHReturnsTheElement : Obligations.RdHReturnsTheElement := by
  refine ⟨fun idx v h => ?_, fun idx s h hb => ?_, fun _ _ => exec_rdH_of_written, fun _ _ => exec_rdH_of_unwritten⟩
  · rw [decode_rdH_word, ranged_of_le h]
  · exact exec_of_held rfl (decide_eq_true (Nat.le_of_lt_succ h)) hb

/-- Settles O42: RD_M is held while BUSY, and in IDLE the written flag of the element decides between its value and the
fault. -/
theorem rdMReturnsTheElement : Obligations.RdMReturnsTheElement := by
  refine ⟨fun idx v h => ?_, fun idx s h hb => ?_, fun _ _ => exec_rdM_of_written, fun _ _ => exec_rdM_of_unwritten⟩
  · rw [decode_rdM_word, ranged_of_le h]
  · exact exec_of_held rfl (decide_eq_true (Nat.le_of_lt_succ h)) hb

/-- Settles O43: every index is a row of the ROM, which no state holds. -/
theorem rdKReturnsTheConstant : Obligations.RdKReturnsTheConstant :=
  ⟨decode_rdK_word, exec_rdK, by decide, by decide⟩

/-- Settles O46: the reply is STATUS of the state itself, whose BUSY bit is read from the phase. -/
theorem rdStatusReturnsStatus : Obligations.RdStatusReturnsStatus :=
  ⟨decode_rdStatus_word, fun s => State.status_eq s ▸ exec_rdStatus s⟩

/-- Settles O47: CLR_ERR clears the two status fields and is accepted. -/
theorem clrErrClearsErrAndCause : Obligations.ClrErrClearsErrAndCause :=
  ⟨decode_clrErr_word, exec_clrErr⟩

end Sys2Proof.Machine
end

