-- ==== Sys2Proof/Proofs/Exceptions.lean ====
section
/-! SUPPORT. Which of the three causes an illegal word has (spec/60_exceptions.md R203). -/

namespace Sys2Proof

/-- Where the opcode is not reserved, the opcode's range test decides (R72). RD_K has no test in `decodeOp`: every 6-bit
index passes its range. -/
theorem decodeOp_eq_ranged {op : Nat} (h : op ≤ 8) (idx : Idx) (v : Word) :
    ∃ i, decodeOp op idx v = ranged (lastIndex op) idx i := by
  obtain hlt | rfl | hgt := lt_trichotomy op 5
  · interval_cases op <;> exact ⟨_, rfl⟩
  · have hidx : idx.toNat ≤ lastIndex 5 := Nat.le_of_lt_succ idx.isLt
    exact ⟨.rdK idx, (ranged_of_le hidx _).symm⟩
  · interval_cases op <;> exact ⟨_, rfl⟩

/-- An index above its opcode's last legal one is cause 3 where the opcode and the reserved bits pass their tests (R72). -/
theorem decode_badIndex {t : Txn} (hop : (opField t.cmd).toNat ≤ 8) (hr : rsvdField t.cmd = 0)
    (hidx : lastIndex (opField t.cmd).toNat < (idxField t.cmd).toNat) : decode t = .illegal .badIndex := by
  obtain ⟨i, hi⟩ := decodeOp_eq_ranged hop (idxField t.cmd) t.wdata
  rw [decode_fields hop hr, hi, ranged_of_lt hidx]

/-- Everything the decoder can answer, each answer with the tests that lead to it (R72). -/
theorem decode_cases (t : Txn) :
    (9 ≤ (opField t.cmd).toNat ∧ decode t = .illegal .reservedOp) ∨
    ((opField t.cmd).toNat ≤ 8 ∧ rsvdField t.cmd ≠ 0 ∧ decode t = .illegal .reservedBits) ∨
    ((opField t.cmd).toNat ≤ 8 ∧ rsvdField t.cmd = 0 ∧ lastIndex (opField t.cmd).toNat < (idxField t.cmd).toNat ∧
      decode t = .illegal .badIndex) ∨
    ((opField t.cmd).toNat ≤ 8 ∧ rsvdField t.cmd = 0 ∧ (idxField t.cmd).toNat ≤ lastIndex (opField t.cmd).toNat ∧
      ∃ i, decode t = .legal i) := by
  obtain hop | hop := Nat.lt_or_ge 8 (opField t.cmd).toNat
  · exact .inl ⟨hop, decode_reservedOp hop⟩
  by_cases hr : rsvdField t.cmd = 0
  · obtain hidx | hidx := Nat.lt_or_ge (lastIndex (opField t.cmd).toNat) (idxField t.cmd).toNat
    · exact .inr (.inr (.inl ⟨hop, hr, hidx, decode_badIndex hop hr hidx⟩))
    · exact .inr (.inr (.inr ⟨hop, hr, hidx, (decode_legal_iff t).2 ⟨hop, hr, hidx⟩⟩))
  · exact .inr (.inl ⟨hop, hr, decode_reservedBits hop hr⟩)

theorem decode_reservedOp_iff (t : Txn) : decode t = .illegal .reservedOp ↔ 9 ≤ (opField t.cmd).toNat := by
  refine ⟨fun h => ?_, decode_reservedOp⟩
  obtain ⟨hop, -⟩ | ⟨-, -, h'⟩ | ⟨-, -, -, h'⟩ | ⟨-, -, -, i, h'⟩ := decode_cases t
  · exact hop
  all_goals simp [h'] at h

theorem decode_reservedBits_iff (t : Txn) :
    decode t = .illegal .reservedBits ↔ (opField t.cmd).toNat ≤ 8 ∧ rsvdField t.cmd ≠ 0 := by
  refine ⟨fun h => ?_, fun ⟨hop, hr⟩ => decode_reservedBits hop hr⟩
  obtain ⟨-, h'⟩ | ⟨hop, hr, -⟩ | ⟨-, -, -, h'⟩ | ⟨-, -, -, i, h'⟩ := decode_cases t
  case inr.inl => exact ⟨hop, hr⟩
  all_goals simp [h'] at h

theorem decode_badIndex_iff (t : Txn) :
    decode t = .illegal .badIndex ↔ (opField t.cmd).toNat ≤ 8 ∧ rsvdField t.cmd = 0 ∧
      lastIndex (opField t.cmd).toNat < (idxField t.cmd).toNat := by
  refine ⟨fun h => ?_, fun ⟨hop, hr, hidx⟩ => decode_badIndex hop hr hidx⟩
  obtain ⟨-, h'⟩ | ⟨-, -, h'⟩ | ⟨hop, hr, hidx, -⟩ | ⟨-, -, -, i, h'⟩ := decode_cases t
  case inr.inr.inl => exact ⟨hop, hr, hidx⟩
  all_goals simp [h'] at h

/-- Settles O4: each cause, and legality, is the outcome of one path through the decoder's tests. R203's example words lie
on the first two paths. -/
theorem illegalCausePriority : Obligations.IllegalCausePriority := fun t =>
  ⟨decode_reservedOp_iff t, decode_reservedBits_iff t, decode_badIndex_iff t, decode_legal_iff t,
    fun h => decode_reservedOp (h ▸ by decide), fun h => decode_reservedBits (h ▸ by decide) (h ▸ by decide)⟩

end Sys2Proof
end

