-- ==== Sys2Proof/Proofs/Reset.lean ====
section
/-! SUPPORT. The written flags, BUSY and STATUS of the state after reset (R230 to R232). The open contents (R231, assumption
log 2) are not spoken of. -/

namespace Sys2Proof.Machine

@[simp] theorem State.reset_busy : State.reset.busy = false := State.busy_eq_false_iff.2 State.reset_phase

@[simp] theorem State.reset_hWritten_getElem (k : Fin 8) : State.reset.hWritten[k] = false :=
  Vector.getElem_replicate k.isLt

@[simp] theorem State.reset_mWritten_getElem (j : Fin 16) : State.reset.mWritten[j] = false :=
  Vector.getElem_replicate j.isLt

/-- STATUS holds nothing but BUSY, DONE, ERR and CAUSE (R28): where these are 0, it reads 0. -/
theorem State.status_eq_zero {s : State} (hbusy : s.busy = false) (hdone : s.done = false) (herr : s.err = false)
    (hcause : s.cause = 0) : s.status = 0 := by
  rw [State.status, hbusy, hdone, herr, hcause]
  decide

@[simp] theorem State.reset_status : State.reset.status = 0 :=
  State.status_eq_zero State.reset_busy State.reset_done State.reset_err State.reset_cause

/-- Settles O58: the phase and the three status fields are reset's own, BUSY and STATUS follow from them, and no element is
written. -/
theorem resetValues : Obligations.ResetValues :=
  ⟨State.reset_phase, State.reset_busy, State.reset_done, State.reset_err, State.reset_cause, State.reset_status,
    State.reset_hWritten_getElem, State.reset_mWritten_getElem⟩

end Sys2Proof.Machine
end

