-- ==== Sys2Proof/Proofs/Decoder.lean ====
section
/-! SUPPORT. The encoder against the decoder (spec/30_encoding.md R72, R74), the opcode map of R67 and the write data
of R65, with the statements about them. -/

namespace Sys2Proof

/-! ## Commands and their words -/

theorem Instr.op_toNat_le (i : Instr) : i.op.toNat ≤ 8 := by
  cases i <;> simp [Instr.op]

theorem decode_encode_eq (i : Instr) : decode (encode i) = decodeOp i.op.toNat i.index i.wdata :=
  decode_cmdWord i.op i.index i.wdata i.op_toNat_le

/-- Every command's index passes the range test of its opcode exactly where the term is a command (R68). -/
theorem Instr.wf_iff (i : Instr) : i.wf = true ↔ i.index.toNat ≤ lastIndex i.op.toNat := by
  cases i with
  | wrH idx _ | wrM idx _ | rdH idx | rdM idx => simp [Instr.wf, Instr.index, Instr.op, lastIndex]
  | rdK idx => exact ⟨fun _ => Nat.le_of_lt_succ idx.isLt, fun _ => rfl⟩
  | nop | start | rdStatus | clrErr => exact ⟨fun _ => Nat.le_refl 0, fun _ => rfl⟩

/-- The range test of its opcode is the only test an encoded term can fail (R72, R74). RD_K has no test in `decodeOp`: every
index passes its range. -/
theorem decode_encode (i : Instr) : decode (encode i) = ranged (lastIndex i.op.toNat) i.index i := by
  rw [decode_encode_eq]
  cases i with
  | rdK idx => exact (ranged_of_le (Nat.le_of_lt_succ idx.isLt) (.rdK idx)).symm
  | _ => rfl

/-- Settles O2: the encoded word reaches the range test of its opcode, and a well-formed term passes it. -/
theorem decodeOfEncodeIsTheCommand : Obligations.DecodeOfEncodeIsTheCommand := by
  intro i hwf
  rw [decode_encode, ranged_of_le (i.wf_iff.1 hwf)]

theorem encode_cmd_of_decode {t : Txn} {i : Instr} (h : decode t = .legal i) : (encode i).cmd = t.cmd := by
  obtain ⟨-, hrsvd, hi⟩ := decode_legal h
  obtain ⟨-, hop, hidx, -⟩ := decodeOp_legal hi
  calc (encode i).cmd
    _ = cmdWord i.op i.index := rfl
    _ = cmdWord (opField t.cmd) (idxField t.cmd) := by rw [BitVec.eq_of_toNat_eq hop, hidx]
    _ = t.cmd := (cmd_eq_cmdWord t.cmd hrsvd).symm

theorem wf_of_decode {t : Txn} {i : Instr} (h : decode t = .legal i) : i.wf = true := by
  obtain ⟨-, -, hi⟩ := decode_legal h
  obtain ⟨hwf, -⟩ := decodeOp_legal hi
  exact hwf

theorem op_of_decode {t : Txn} {i : Instr} (h : decode t = .legal i) : i.op = opField t.cmd := by
  obtain ⟨-, -, hi⟩ := decode_legal h
  obtain ⟨-, hop, -⟩ := decodeOp_legal hi
  exact BitVec.eq_of_toNat_eq hop

/-- WR_H and WR_M, opcodes 1 and 2, carry the write data of the transaction (R65). -/
theorem wdata_of_decode {t : Txn} {i : Instr} (h : decode t = .legal i) (hop : i.op = 1 ∨ i.op = 2) :
    i.wdata = t.wdata := by
  obtain ⟨-, -, hi⟩ := decode_legal h
  obtain ⟨-, hopField, -, hdata | ⟨hne1, hne2⟩⟩ := decodeOp_legal hi
  · exact hdata
  · rw [← hopField] at hne1 hne2
    obtain hop | hop := hop
    · exact absurd (congrArg BitVec.toNat hop) hne1
    · exact absurd (congrArg BitVec.toNat hop) hne2

/-- Settles O3: the command has the opcode and the index of the word, whose reserved bits are 0. -/
theorem encodeOfDecodeIsTheWord : Obligations.EncodeOfDecodeIsTheWord := by
  refine fun t i h => ⟨wf_of_decode h, encode_cmd_of_decode h, fun idx x hi => wdata_of_decode h ?_⟩
  obtain rfl | rfl := hi
  · exact .inl rfl
  · exact .inr rfl

/-! ## The opcode map -/

theorem cmd_eq_iff_fields (c d : Cmd) :
    c = d ↔ opField c = opField d ∧ rsvdField c = rsvdField d ∧ idxField c = idxField d := by
  refine ⟨fun h => h ▸ ⟨rfl, rfl, rfl⟩, fun ⟨hop, hrsvd, hidx⟩ => ?_⟩
  rw [cmd_eq_fields c, cmd_eq_fields d, hop, hrsvd, hidx]

@[simp] theorem opField_and (c d : Cmd) : opField (c &&& d) = opField c &&& opField d :=
  BitVec.extractLsb'_and

@[simp] theorem rsvdField_and (c d : Cmd) : rsvdField (c &&& d) = rsvdField c &&& rsvdField d :=
  BitVec.extractLsb'_and

@[simp] theorem idxField_and (c d : Cmd) : idxField (c &&& d) = idxField c &&& idxField d :=
  BitVec.extractLsb'_and

/-- Row n of R67's table asks for opcode n and reserved bits 0. -/
theorem opcodeMap_fields : ∀ n : Fin opcodeMap.length,
    opField opcodeMap[n].mask = BitVec.allOnes 4 ∧ (opField opcodeMap[n].pattern).toNat = n ∧
    rsvdField opcodeMap[n].mask = BitVec.allOnes 6 ∧ rsvdField opcodeMap[n].pattern = 0 := by
  decide

/-- The index bits of a row's mask are those that are 0 in every index of the row's range. -/
theorem opcodeMap_idxMask : ∀ (n : Fin opcodeMap.length) (idx : Idx),
    idx &&& idxField opcodeMap[n].mask = idxField opcodeMap[n].pattern ↔ idx.toNat ≤ lastIndex n := by
  decide +kernel

/-- A word matches row n exactly when its opcode is n, its reserved bits are 0 and its index is in the opcode's range. -/
theorem covers_iff (c : Cmd) (n : Nat) (hn : n < opcodeMap.length) : opcodeMap[n].covers c = true ↔
    (opField c).toNat = n ∧ rsvdField c = 0 ∧ (idxField c).toNat ≤ lastIndex n := by
  obtain ⟨hopMask, hop, hrsvdMask, hrsvd⟩ := opcodeMap_fields ⟨n, hn⟩
  have hidx := opcodeMap_idxMask ⟨n, hn⟩ (idxField c)
  simp only [Fin.getElem_fin] at hopMask hop hrsvdMask hrsvd hidx
  rw [OpcodeRow.covers, beq_iff_eq, cmd_eq_iff_fields, opField_and, rsvdField_and, idxField_and, hopMask, hrsvdMask,
    hrsvd, hidx, BitVec.and_allOnes, BitVec.and_allOnes, ← BitVec.toNat_inj, hop]

/-- The words that decode to a command of opcode n. -/
theorem decode_op_iff (c : Cmd) (v : Word) {n : Nat} (hn : n ≤ 8) :
    (∃ i, decode ⟨c, v⟩ = .legal i ∧ i.op.toNat = n) ↔
      (opField c).toNat = n ∧ rsvdField c = 0 ∧ (idxField c).toNat ≤ lastIndex n := by
  constructor
  · rintro ⟨i, hi, hop⟩
    obtain ⟨-, hrsvd, hidx⟩ := (decode_legal_iff _).1 ⟨i, hi⟩
    rw [op_of_decode hi] at hop
    exact ⟨hop, hrsvd, hop ▸ hidx⟩
  · rintro ⟨rfl, hrsvd, hidx⟩
    obtain ⟨i, hi⟩ := (decode_legal_iff ⟨c, v⟩).2 ⟨hn, hrsvd, hidx⟩
    exact ⟨i, hi, by rw [op_of_decode hi]⟩

/-- Settles O5: a row and a command of its opcode ask the same of the three fields, and rows differ in the opcode. -/
theorem opcodeMapIsTheDecoder : Obligations.OpcodeMapIsTheDecoder := by
  refine ⟨fun c v n hn => ?_, fun c n k hn hk hcn hck => ?_⟩
  · have hlen : opcodeMap.length = 9 := rfl
    rw [covers_iff, decode_op_iff c v (by omega)]
  · obtain ⟨hopn, -⟩ := (covers_iff c n hn).1 hcn
    obtain ⟨hopk, -⟩ := (covers_iff c k hk).1 hck
    exact hopn.symm.trans hopk

/-! ## Write data -/

theorem eq_of_ranged_legal {last : Nat} {idx : Idx} {i j : Instr} (h : ranged last idx i = .legal j) : j = i := by
  unfold ranged at h
  split at h
  · exact (Decoded.legal.inj h).symm
  · cases h

theorem decodeOp_wdata_irrelevant {op : Nat} (h1 : op ≠ 1) (h2 : op ≠ 2) (idx : Idx) (a b : Word) :
    decodeOp op idx a = decodeOp op idx b := by
  unfold decodeOp
  split
  case h_2 => exact absurd rfl h1
  case h_3 => exact absurd rfl h2
  all_goals rfl

/-- Settles O7: only the arms of opcodes 1 and 2 read the write data, and each answers its own command. -/
theorem writeDataOnlyForWrites : Obligations.WriteDataOnlyForWrites := by
  refine ⟨fun c a b h1 h2 => ?_, fun c a i h hop => ?_, fun c a i h hop => ?_⟩
  · have hne1 : (opField c).toNat ≠ 1 := fun h => h1 (BitVec.eq_of_toNat_eq h)
    have hne2 : (opField c).toNat ≠ 2 := fun h => h2 (BitVec.eq_of_toNat_eq h)
    simp only [decode, decodeOp_wdata_irrelevant hne1 hne2 (idxField c) a b]
  · obtain ⟨-, -, hi⟩ := decode_legal h
    rw [hop] at hi
    exact eq_of_ranged_legal hi
  · obtain ⟨-, -, hi⟩ := decode_legal h
    rw [hop] at hi
    exact eq_of_ranged_legal hi

/-! ## Words written out -/

/-- Settles O1, by running the decoder on the nine words. -/
theorem sampleWordsDecode : Obligations.SampleWordsDecode := by
  unfold Obligations.SampleWordsDecode
  decide

end Sys2Proof
end

