-- ==== Sys2Proof/Proofs/Assembler.lean ====
section
/-! SUPPORT. The assembler's forms and the pseudo-commands (spec/30_encoding.md R74, R75), with the statements about them. -/

namespace Sys2Proof.Machine
/-- Settles O8: R74's table writes each word as its opcode's constant `|` the index, which is the word of its fields. -/
theorem assemblerForms : Obligations.AssemblerForms := by
  refine ⟨fun i h => if_pos h, fun i h => by simp [assemble, h], fun _ _ => rfl, fun idx value => ?_, by decide⟩
  have hword (op : BitVec 4) (v : Word) :
      (⟨cmdWord op idx, v⟩ : Txn) = ⟨op.setWidth 16 <<< 12 ||| idx.setWidth 16, v⟩ := by
    rw [or_setWidth_eq_cmdWord]
  exact ⟨hword 1 value, hword 2 value, hword 3 0, hword 4 0, hword 5 0⟩

/-! ## Pseudo-commands -/

/-- A reply that is not the last must have BUSY set (R75). -/
theorem waitIdleEnds_cons (r : Word) {rs : List Word} (h : rs ≠ []) :
    waitIdleEnds (r :: rs) = (r.getLsbD 0 && waitIdleEnds rs) := by
  cases rs with
  | nil => exact absurd rfl h
  | cons => rfl

theorem waitIdleEnds_append_singleton (pre : List Word) (last : Word) :
    waitIdleEnds (pre ++ [last]) = (pre.all (·.getLsbD 0) && !last.getLsbD 0) := by
  induction pre with
  | nil => rfl
  | cons r pre ih => rw [List.cons_append, waitIdleEnds_cons r (by simp), ih, List.all_cons, Bool.and_assoc]

theorem waitIdleEnds_iff (rs : List Word) : waitIdleEnds rs = true ↔
    ∃ pre last, rs = pre ++ [last] ∧ (∀ r ∈ pre, r.getLsbD 0 = true) ∧ last.getLsbD 0 = false := by
  constructor
  · intro h
    obtain rfl | ⟨pre, last, rfl⟩ := List.eq_nil_or_concat' rs
    · cases h
    · rw [waitIdleEnds_append_singleton] at h
      exact ⟨pre, last, rfl, by simpa using h⟩
  · rintro ⟨pre, last, rfl, hpre, hlast⟩
    rw [waitIdleEnds_append_singleton]
    simpa using ⟨hpre, hlast⟩

/-- Settles O9: the expansions are lists over the elements in order, and the loop ends at the first clear reply. -/
theorem pseudoCommandExpansions : Obligations.PseudoCommandExpansions := by
  refine ⟨fun _ _ _ _ _ _ _ _ => rfl, fun block j => ?_, fun block => ?_, fun _ => rfl, fun _ => rfl, rfl,
    waitIdleEnds_iff⟩
  · simp [expandPseudo]
  · simp [expandPseudo]

end Sys2Proof.Machine
end

