-- ==== Sys2Proof/Proofs/Expander.lean ====
section
/-! SUPPORT. The equations of Expand and the window form (spec/41_schedule_expander.md R104, R105, R107), the bytes of the
stream in the schedule (spec/20_memory.md R41), and the statements about them. -/

namespace Sys2Proof.Machine

/-- The first sixteen words of Expand are those of LOADW (R107). -/
theorem expand_low (m : Vector Word 16) {j : Nat} (hj : j < 16) : (expand m)[j] = bswap32 m[j] := by
  rw [expand_eq_upTo m 0 j (by omega) (.inr hj) (by decide), expandUpTo_low m 0 j hj]

/-- From 16 on a word of Expand is the one SCHED(i) computes from the schedule itself: the four words it reads were there
when it was computed, and do not change (R107). -/
theorem expand_high (m : Vector Word 16) {i : Nat} (h : 16 ≤ i ∧ i < 64) : (expand m)[i] = schedWord i h (expand m) := by
  have hstable (j : Nat) (hj : j < i) : (expandUpTo m i)[j] = (expand m)[j] :=
    (expand_eq_upTo m i j (by omega) (.inl hj) (by omega)).symm
  calc (expand m)[i]
    _ = (scheduleAt i (expandUpTo m i))[i] := expand_eq_upTo m (i + 1) i h.2 (.inl i.lt_succ_self) h.2
    _ = schedWord i h (expandUpTo m i) := scheduleAt_self i _ h
    _ = schedWord i h (expand m) :=
        schedWord_congr i h _ _ (hstable _ (by omega)) (hstable _ (by omega)) (hstable _ (by omega)) (hstable _ (by omega))

/-- Settles O17: the two ranges of the schedule. -/
theorem expandEquations : Obligations.ExpandEquations :=
  fun m => ⟨fun _ => expand_low m, fun _ h16 h64 => expand_high m ⟨h16, h64⟩⟩

/-- The byte that was packed last comes out first (R41, R83). -/
theorem bswap32_append (b0 b1 b2 b3 : BitVec 8) : bswap32 (b3 ++ b2 ++ b1 ++ b0) = b0 ++ b1 ++ b2 ++ b3 := by
  have h0 : (b3 ++ b2 ++ b1 ++ b0).extractLsb' 0 8 = b0 := BitVec.extractLsb'_append_eq_right
  have h1 : (b3 ++ b2 ++ b1 ++ b0).extractLsb' 8 8 = b1 := by
    rw [BitVec.extractLsb'_append_eq_of_le (by decide)]; exact BitVec.extractLsb'_append_eq_right
  have h2 : (b3 ++ b2 ++ b1 ++ b0).extractLsb' 16 8 = b2 := by
    rw [BitVec.extractLsb'_append_eq_of_le (by decide), BitVec.extractLsb'_append_eq_of_le (by decide)]
    exact BitVec.extractLsb'_append_eq_right
  have h3 : (b3 ++ b2 ++ b1 ++ b0).extractLsb' 24 8 = b3 := by
    rw [BitVec.extractLsb'_append_eq_of_le (by decide), BitVec.extractLsb'_append_eq_of_le (by decide)]
    exact BitVec.extractLsb'_append_eq_left
  rw [bswap32, h0, h1, h2, h3]

/-- Settles O16: word j of the schedule is M[j] with its bytes reversed. -/
theorem streamBytesBecomeBigEndian : Obligations.StreamBytesBecomeBigEndian := by
  refine ⟨fun m j hj b0 b1 b2 b3 hm => ?_, by decide⟩
  rw [expand_low m hj, hm, bswap32_append]

/-- Settles O18: W[i] becomes the word of SCHED(i), which reads those four words, and no other word is written. -/
theorem scheduleDependsOnFourWords : Obligations.ScheduleDependsOnFourWords := by
  refine fun i h16 h64 w w' e16 e7 e15 e2 => ⟨?_, scheduleAt_other i w⟩
  rw [scheduleAt_self i w ⟨h16, h64⟩, scheduleAt_self i w' ⟨h16, h64⟩, schedWord_congr i ⟨h16, h64⟩ w w' e16 e7 e15 e2]

@[simp] theorem windowAt_getElem (i : Nat) (h : 16 ≤ i ∧ i ≤ 64) (w : Vector Word 64) (k : Nat) (hk : k < 16) :
    (windowAt i h w)[k] = w[i - 16 + k] := by
  simp [windowAt]

/-- Four places of the window are the four words SCHED(i) reads (R105). -/
theorem windowWord_windowAt {i : Nat} (h : 16 ≤ i ∧ i < 64) (w : Vector Word 64) :
    windowWord (windowAt i ⟨h.1, h.2.le⟩ w) = schedWord i h w := by
  simp only [windowWord, schedWord, windowAt_getElem, Nat.add_zero, show i - 16 + 9 = i - 7 by omega,
    show i - 16 + 1 = i - 15 by omega, show i - 16 + 14 = i - 2 by omega]

/-- SCHED(i) leaves the words that stay in the window (R104), and its own enters at the end (R105). -/
theorem windowShift_windowAt {i : Nat} (h : 16 ≤ i ∧ i < 64) (w : Vector Word 64) :
    windowShift (windowAt i ⟨h.1, h.2.le⟩ w) = windowAt (i + 1) ⟨by omega, h.2⟩ (scheduleAt i w) := by
  refine Vector.ext fun k hk => ?_
  rw [windowAt_getElem, windowShift, Vector.getElem_ofFn]
  by_cases hlt : k < 15
  · rw [dif_pos hlt]
    rw [windowAt_getElem, scheduleAt_other i w _ (by omega) (by omega)]
    simp only [show i + 1 - 16 + k = i - 16 + (k + 1) by omega]
  · rw [dif_neg hlt, windowWord_windowAt h, ← scheduleAt_self i w h]
    simp only [show i + 1 - 16 + k = i by omega]

/-- Settles O19: the window holds the words SCHED(i) reads, and its new last word is W[i]. -/
theorem windowFormAgrees : Obligations.WindowFormAgrees := fun i h16 h64 w =>
  ⟨(windowWord_windowAt ⟨h16, h64⟩ w).trans (scheduleAt_self i w ⟨h16, h64⟩).symm,
    windowShift_windowAt ⟨h16, h64⟩ w⟩

end Sys2Proof.Machine
end

