-- ==== Sys2Proof/Proofs/CommandEffects.lean ====
section
/-! SUPPORT. What commands can do, over all of them: when they fault (spec/70_reset_and_hazards.md R232), what they change
(spec/44_host_commands.md section 2), and what a command run again does (spec/20_memory.md R46), with the statements about
them. -/

namespace Sys2Proof

/-- The commands that read: RD_H, RD_M, RD_K and RD_STATUS (R46). -/
def Instr.IsRead (i : Instr) : Prop := (∃ idx, i = .rdH idx ∨ i = .rdM idx ∨ i = .rdK idx) ∨ i = .rdStatus

/-- The commands that write a register HOST can address, and CLR_ERR (R46). -/
def Instr.IsWrite (i : Instr) : Prop := (∃ idx x, i = .wrH idx x ∨ i = .wrM idx x) ∨ i = .clrErr

end Sys2Proof

namespace Sys2Proof.Machine

variable {s t : State} {i : Instr}

/-! ## Terms with an index out of range -/

/-- Such a term has the effect of the illegal word with cause 3 (assumption log 7), in every phase (R181). -/
theorem exec_of_not_wf (hwf : i.wf = false) (s : State) : exec i s = .next (s.raiseIllegalCommand .badIndex) := by
  have ge8 {idx : Idx} (h : decide (idx.toNat ≤ 7) = false) : 8 ≤ idx.toNat := Nat.lt_of_not_le (of_decide_eq_false h)
  have ge16 {idx : Idx} (h : decide (idx.toNat ≤ 15) = false) : 16 ≤ idx.toNat := Nat.lt_of_not_le (of_decide_eq_false h)
  cases i with
  | wrH idx x => simp only [exec, execWrH, hIndex_of_ge (ge8 hwf)]
  | wrM idx x => simp only [exec, execWrM, mIndex_of_ge (ge16 hwf)]
  | rdH idx => simp only [exec, execRdH, hIndex_of_ge (ge8 hwf)]
  | rdM idx => simp only [exec, execRdM, mIndex_of_ge (ge16 hwf)]
  | nop | rdK | start | rdStatus | clrErr => simp [Instr.wf] at hwf

/-! ## Faults -/

/-- Command i reads element r, which is unwritten (R232): RD_H or RD_M of it, or START with it among its inputs. -/
def State.ReadsUnwritten (s : State) (i : Instr) (r : Reg) : Prop :=
  (∃ (idx : Idx) (k : Fin 8), i = .rdH idx ∧ idx.toNat = k.val ∧ r = .h k ∧ s.hWritten[k] = false) ∨
  (∃ (idx : Idx) (j : Fin 16), i = .rdM idx ∧ idx.toNat = j.val ∧ r = .m j ∧ s.mWritten[j] = false) ∨
  (i = .start ∧
    ((∃ k : Fin 8, r = .h k ∧ s.hWritten[k] = false) ∨ ∃ j : Fin 16, r = .m j ∧ s.mWritten[j] = false))

theorem exec_start_of_unwritten {r : Reg} (hb : s.busy = false) (hr : s.firstUnwritten = some r) :
    exec .start s = .fault (.unwrittenRead r) := by
  simp [exec, execStart, hb, hr]

/-- In IDLE a command of a legal index answers a next state or faults on an unwritten element that it reads. -/
theorem exec_of_idle (hb : s.busy = false) (hwf : i.wf = true) :
    (∃ t, exec i s = .next t) ∨ ∃ r, exec i s = .fault (.unwrittenRead r) ∧ s.ReadsUnwritten i r := by
  cases i with
  | nop | rdK | rdStatus | clrErr => exact .inl ⟨_, rfl⟩
  | wrH idx x => exact .inl ⟨_, exec_wrH_of_idle (Nat.lt_succ_of_le (of_decide_eq_true hwf)) hb x⟩
  | wrM idx x => exact .inl ⟨_, exec_wrM_of_idle (Nat.lt_succ_of_le (of_decide_eq_true hwf)) hb x⟩
  | rdH idx =>
    have hi : idx.toNat < 8 := Nat.lt_succ_of_le (of_decide_eq_true hwf)
    cases hw : s.hWritten[idx.toNat] with
    | true => exact .inl ⟨_, exec_rdH_of_written hi hb hw⟩
    | false => exact .inr ⟨_, exec_rdH_of_unwritten hi hb hw, .inl ⟨idx, ⟨_, hi⟩, rfl, rfl, rfl, hw⟩⟩
  | rdM idx =>
    have hi : idx.toNat < 16 := Nat.lt_succ_of_le (of_decide_eq_true hwf)
    cases hw : s.mWritten[idx.toNat] with
    | true => exact .inl ⟨_, exec_rdM_of_written hi hb hw⟩
    | false => exact .inr ⟨_, exec_rdM_of_unwritten hi hb hw, .inr (.inl ⟨idx, ⟨_, hi⟩, rfl, rfl, rfl, hw⟩)⟩
  | start =>
    cases hr : s.firstUnwritten with
    | none => exact .inl ⟨_, exec_start_of_allWritten hb (State.firstUnwritten_eq_none_iff.1 hr)⟩
    | some r => exact .inr ⟨r, exec_start_of_unwritten hb hr, .inr (.inr ⟨rfl, State.firstUnwritten_unwritten hr⟩)⟩

/-- A term with a bad index, and a command while BUSY, never stop: only a read of an unwritten element in IDLE does. -/
theorem exec_outcome (i : Instr) (s : State) : (∃ t, exec i s = .next t) ∨
    (s.busy = false ∧ ∃ r, exec i s = .fault (.unwrittenRead r) ∧ s.ReadsUnwritten i r) := by
  cases hwf : i.wf with
  | false => exact .inl ⟨_, exec_of_not_wf hwf s⟩
  | true =>
    cases hb : s.busy with
    | false =>
      obtain hnext | hfault := exec_of_idle hb hwf
      · exact .inl hnext
      · exact .inr ⟨rfl, hfault⟩
    | true =>
      cases hheld : heldCommand i with
      | true => exact .inl ⟨s, exec_of_held hheld hwf hb⟩
      | false =>
        cases i with
        | nop | rdK | rdStatus | clrErr => exact .inl ⟨_, rfl⟩
        | wrH | wrM | rdH | rdM | start => simp [heldCommand] at hheld

/-- With all 24 inputs written no command reads an unwritten element. -/
theorem State.not_readsUnwritten {r : Reg} (hw : s.allWritten) : ¬ s.ReadsUnwritten i r := by
  obtain ⟨hh, hm⟩ := hw
  rintro (⟨-, k, -, -, -, hk⟩ | ⟨-, j, -, -, -, hj⟩ | ⟨-, ⟨k, -, hk⟩ | ⟨j, -, hj⟩⟩)
  · exact Bool.eq_false_iff.1 hk (hh k)
  · exact Bool.eq_false_iff.1 hj (hm j)
  · exact Bool.eq_false_iff.1 hk (hh k)
  · exact Bool.eq_false_iff.1 hj (hm j)

/-- In IDLE a command that reads an unwritten element faults. -/
theorem exec_faults_of_readsUnwritten {r : Reg} (hb : s.busy = false) (h : s.ReadsUnwritten i r) :
    ∃ f, exec i s = .fault f := by
  have hnot : ¬ s.allWritten := fun hw => State.not_readsUnwritten hw h
  obtain ⟨idx, k, rfl, hk, -, hw⟩ | ⟨idx, j, rfl, hj, -, hw⟩ | ⟨rfl, -⟩ := h
  · have hi : idx.toNat < 8 := hk ▸ k.isLt
    exact ⟨_, exec_rdH_of_unwritten hi hb (by simpa [hk] using hw)⟩
  · have hi : idx.toNat < 16 := hj ▸ j.isLt
    exact ⟨_, exec_rdM_of_unwritten hi hb (by simpa [hj] using hw)⟩
  · obtain ⟨r, hr⟩ := Option.ne_none_iff_exists'.1 (mt State.firstUnwritten_eq_none_iff.1 hnot)
    exact ⟨_, exec_start_of_unwritten hb hr⟩

/-- Settles O45: some input is unwritten, and the first such is the one the fault names. -/
theorem startFaultsOnUnwrittenInput : Obligations.StartFaultsOnUnwrittenInput := by
  intro s hb hw
  cases hr : s.firstUnwritten with
  | none => exact absurd (State.firstUnwritten_eq_none_iff.1 hr) hw
  | some r =>
    obtain ⟨k, rfl, hk⟩ | ⟨j, rfl, hj⟩ := State.firstUnwritten_unwritten hr
    · exact .inl ⟨k, hk, exec_start_of_unwritten hb hr⟩
    · exact .inr ⟨j, hj, exec_start_of_unwritten hb hr⟩

/-- The reads of R232 without the name of the element. -/
theorem exists_readsUnwritten_iff : (∃ r, s.ReadsUnwritten i r) ↔
    (∃ (idx : Idx) (k : Fin 8), i = .rdH idx ∧ idx.toNat = k.val ∧ s.hWritten[k] = false) ∨
    (∃ (idx : Idx) (j : Fin 16), i = .rdM idx ∧ idx.toNat = j.val ∧ s.mWritten[j] = false) ∨
    (i = .start ∧ ((∃ k : Fin 8, s.hWritten[k] = false) ∨ ∃ j : Fin 16, s.mWritten[j] = false)) := by
  constructor
  · rintro ⟨r, ⟨idx, k, hi, hk, -, hw⟩ | ⟨idx, j, hi, hj, -, hw⟩ | ⟨hi, ⟨k, -, hk⟩ | ⟨j, -, hj⟩⟩⟩
    · exact .inl ⟨idx, k, hi, hk, hw⟩
    · exact .inr (.inl ⟨idx, j, hi, hj, hw⟩)
    · exact .inr (.inr ⟨hi, .inl ⟨k, hk⟩⟩)
    · exact .inr (.inr ⟨hi, .inr ⟨j, hj⟩⟩)
  · rintro (⟨idx, k, hi, hk, hw⟩ | ⟨idx, j, hi, hj, hw⟩ | ⟨hi, ⟨k, hk⟩ | ⟨j, hj⟩⟩)
    · exact ⟨_, .inl ⟨idx, k, hi, hk, rfl, hw⟩⟩
    · exact ⟨_, .inr (.inl ⟨idx, j, hi, hj, rfl, hw⟩)⟩
    · exact ⟨_, .inr (.inr ⟨hi, .inl ⟨k, rfl, hk⟩⟩)⟩
    · exact ⟨_, .inr (.inr ⟨hi, .inr ⟨j, rfl, hj⟩⟩)⟩

/-- Settles O55: a command that stops reads an unwritten element in IDLE, and such a read stops. -/
theorem faultsAreUnwrittenReads : Obligations.FaultsAreUnwrittenReads := by
  refine ⟨fun i s => ?_, fun i s r h => ?_⟩
  · rw [← exists_readsUnwritten_iff]
    refine ⟨fun ⟨f, hf⟩ => ?_, fun ⟨hb, r, hr⟩ => exec_faults_of_readsUnwritten hb hr⟩
    obtain ⟨t, ht⟩ | ⟨hb, r, -, hr⟩ := exec_outcome i s
    · rw [ht] at hf; cases hf
    · exact ⟨hb, r, hr⟩
  · obtain ⟨t, ht⟩ | ⟨-, f, hf, -⟩ := exec_outcome i s
    · rw [ht] at h; cases h
    · rw [hf] at h; cases h

/-- Settles O49: the index fails the range test of its opcode in the decoder, and the term finds no element in `exec`. -/
theorem badIndexTermIsTheIllegalWord : Obligations.BadIndexTermIsTheIllegalWord := by
  refine fun i s hwf => ⟨?_, exec_of_not_wf hwf s⟩
  have hidx : lastIndex i.op.toNat < i.index.toNat := Nat.lt_of_not_le (mt i.wf_iff.2 (by simp [hwf]))
  rw [decode_encode, ranged_of_lt hidx]

/-! ## What a command changes -/

/-- Settles O53: each effect of a command, by the fields it writes. -/
theorem commandsWriteOnly : Obligations.CommandsWriteOnly := by
  intro i s t h
  obtain ⟨-, -, rfl⟩ | ⟨hwf, rfl⟩ | ⟨x, rfl⟩ | ⟨idx, x, k, rfl, -, -, rfl⟩ | ⟨idx, x, j, rfl, -, -, rfl⟩ |
    ⟨rfl, -, -, rfl⟩ | ⟨rfl, rfl⟩ := exec_cases h
  case inr.inl => simp [hwf, State.raiseIllegalCommand_eq]
  all_goals simp

/-- Every command that is not held is accepted: HOST goes on to its next transaction and one word is returned (R170). -/
theorem exec_accepts (h : exec i s = .next t) (hnot : heldCommand i = false ∨ s.busy = false) :
    t.host = s.host.tail ∧ ∃ x, t.replies = s.replies ++ [x] := by
  obtain ⟨hb, hheld, -⟩ | ⟨-, rfl⟩ | ⟨x, rfl⟩ | ⟨_, _, k, -, -, -, rfl⟩ | ⟨_, _, j, -, -, -, rfl⟩ |
    ⟨-, -, -, rfl⟩ | ⟨-, rfl⟩ := exec_cases h
  · simp [hb, hheld] at hnot
  all_goals exact ⟨rfl, _, rfl⟩

/-! ## Repeated commands -/

/-- A read is held, or returns a value that only the registers of CORE decide: an acceptance before it does not change it. -/
theorem exec_read_cases (hi : i.IsRead) (hwf : i.wf = true) (h : exec i s = .next t) :
    t = s ∨ ∃ x, t = s.accept x ∧ ∀ y, exec i (s.accept y) = .next ((s.accept y).accept x) := by
  cases hwait : heldCommand i && s.busy with
  | true =>
    obtain ⟨hheld, hb⟩ := Bool.and_eq_true_iff.1 hwait
    rw [exec_of_held hheld hwf hb, Host.Outcome.next.injEq] at h
    exact .inl h.symm
  | false =>
    obtain ⟨idx, rfl | rfl | rfl⟩ | rfl := hi
    · have hb : s.busy = false := hwait
      have hlt : idx.toNat < 8 := Nat.lt_succ_of_le (of_decide_eq_true hwf)
      cases hw : s.hWritten[idx.toNat] with
      | true =>
        rw [exec_rdH_of_written hlt hb hw, Host.Outcome.next.injEq] at h
        exact .inr ⟨_, h.symm, fun y => exec_rdH_of_written (s := s.accept y) hlt hb hw⟩
      | false => rw [exec_rdH_of_unwritten hlt hb hw] at h; cases h
    · have hb : s.busy = false := hwait
      have hlt : idx.toNat < 16 := Nat.lt_succ_of_le (of_decide_eq_true hwf)
      cases hw : s.mWritten[idx.toNat] with
      | true =>
        rw [exec_rdM_of_written hlt hb hw, Host.Outcome.next.injEq] at h
        exact .inr ⟨_, h.symm, fun y => exec_rdM_of_written (s := s.accept y) hlt hb hw⟩
      | false => rw [exec_rdM_of_unwritten hlt hb hw] at h; cases h
    · exact .inr ⟨_, (Host.Outcome.next.inj h).symm, fun y => exec_rdK idx (s.accept y)⟩
    · exact .inr ⟨_, (Host.Outcome.next.inj h).symm, fun y => exec_rdStatus (s.accept y)⟩

theorem writeH_accept_writeH (k : Fin 8) (x y : Word) (s : State) :
    ((s.writeH k x).accept y).writeH k x = (s.writeH k x).accept y := by
  simp [State.writeH, State.accept]

theorem writeM_accept_writeM (j : Fin 16) (x y : Word) (s : State) :
    ((s.writeM j x).accept y).writeM j x = (s.writeM j x).accept y := by
  simp [State.writeM, State.accept]

/-- A write that is run again is held again, or accepted again with no other effect. -/
theorem exec_write_again (hi : i.IsWrite) (hwf : i.wf = true) (h : exec i s = .next t) :
    exec i t = .next t ∨ exec i t = .next (t.accept 0) := by
  cases hwait : heldCommand i && s.busy with
  | true =>
    obtain ⟨hheld, hb⟩ := Bool.and_eq_true_iff.1 hwait
    have hs := exec_of_held hheld hwf hb
    rw [hs, Host.Outcome.next.injEq] at h
    exact .inl (h ▸ hs)
  | false =>
    refine .inr ?_
    obtain ⟨idx, x, rfl | rfl⟩ | rfl := hi
    · have hb : s.busy = false := hwait
      have hlt : idx.toNat < 8 := Nat.lt_succ_of_le (of_decide_eq_true hwf)
      rw [exec_wrH_of_idle hlt hb, Host.Outcome.next.injEq] at h
      subst h
      exact (exec_wrH_of_idle (s := (s.writeH ⟨idx.toNat, hlt⟩ x).accept 0) hlt hb x).trans
        (by rw [writeH_accept_writeH])
    · have hb : s.busy = false := hwait
      have hlt : idx.toNat < 16 := Nat.lt_succ_of_le (of_decide_eq_true hwf)
      rw [exec_wrM_of_idle hlt hb, Host.Outcome.next.injEq] at h
      subst h
      exact (exec_wrM_of_idle (s := (s.writeM ⟨idx.toNat, hlt⟩ x).accept 0) hlt hb x).trans
        (by rw [writeM_accept_writeM])
    · rw [← Host.Outcome.next.inj h]; rfl

/-- Settles O54: a read is its acceptance alone, and a write leaves nothing for the next one to change. -/
theorem readsAndWritesRepeat : Obligations.ReadsAndWritesRepeat := by
  refine ⟨fun i s t hi hwf h => ?_, fun i s t x hi hwf h hx => ?_, fun i s t hi hwf h => ?_⟩
  · obtain rfl | ⟨x, rfl, -⟩ := exec_read_cases hi hwf h <;> rfl
  · obtain rfl | ⟨y, rfl, hagain⟩ := exec_read_cases hi hwf h
    · simp at hx
    · obtain rfl : y = x := by simpa using hx
      exact ⟨_, hagain y, rfl⟩
  · obtain hagain | hagain := exec_write_again hi hwf h
    · exact ⟨t, hagain, rfl⟩
    · exact ⟨_, hagain, rfl⟩

end Sys2Proof.Machine
end

