-- ==== Sys2Proof/Proofs/Steps.lean ====
section
/-! SUPPORT. Which agent a step moves and what it does then: HOST's hold (spec/44_host_commands.md R170, R171, R181), the
choice of R160, the reset of R230, what core steps leave alone, STATUS, the written flags, and a platform of several COREs
(R56), with the statements about them. -/

namespace Sys2Proof.Machine

variable {s t : State} {i : Instr} {x : Txn} {rest : List Txn}

/-! ## HOST's step -/

theorem State.holds_iff : s.holds x = true ↔ s.busy = true ∧ ∃ i, decode x = .legal i ∧ heldCommand i = true := by
  unfold State.holds
  cases decode x with
  | legal i => simp [and_comm]
  | illegal c => simp

/-- HOST has no step exactly while it waits with a held command (R171). -/
theorem State.hostReady_eq_false_iff (hhost : s.host = x :: rest) :
    s.hostReady = false ↔ s.busy = true ∧ ∃ i, decode x = .legal i ∧ heldCommand i = true := by
  simp [State.hostReady, hhost, ← State.holds_iff]

theorem hostReady_of_legal (hhost : s.host = x :: rest) (hx : decode x = .legal i)
    (hnot : heldCommand i = false ∨ s.busy = false) : s.hostReady = true := by
  rw [← Bool.not_eq_false, State.hostReady_eq_false_iff hhost]
  rintro ⟨hb, j, hj, hheld⟩
  obtain rfl : i = j := Decoded.legal.inj (hx.symm.trans hj)
  simp [hb, hheld] at hnot

theorem hostReady_of_illegal {c : IllegalCause} (hhost : s.host = x :: rest) (hx : decode x = .illegal c) :
    s.hostReady = true := by
  rw [← Bool.not_eq_false, State.hostReady_eq_false_iff hhost]
  rintro ⟨-, j, hj, -⟩
  cases hx.symm.trans hj

theorem hostStep_of_legal (hhost : s.host = x :: rest) (hx : decode x = .legal i) : hostStep s = exec i s := by
  simp only [hostStep, hhost, hx]

theorem hostStep_of_illegal {c : IllegalCause} (hhost : s.host = x :: rest) (hx : decode x = .illegal c) :
    hostStep s = .next (s.raiseIllegalCommand c) := by
  simp only [hostStep, hhost, hx]

/-- Settles O48: only a legal command can be held, and the host step raises the exception with the cause's code. -/
theorem illegalCommandEffect : Obligations.IllegalCommandEffect := by
  intro s x rest c hhost hx
  refine ⟨hostReady_of_illegal hhost hx, ?_⟩
  rw [hostStep_of_illegal hhost hx, ← List.tail_cons (a := x) (as := rest), ← hhost]
  cases c <;> rfl

/-! ## Who moves -/

theorem moveFirst_host_of_ready (h : s.hostReady = true) : moveFirst .host s = hostStep s := if_pos h

theorem moveFirst_host_of_not_ready (h : s.hostReady = false) : moveFirst .host s = coreStep s :=
  if_neg (Bool.eq_false_iff.1 h)

theorem moveFirst_core_of_busy (h : s.busy = true) : moveFirst .core s = coreStep s := if_pos h

theorem moveFirst_core_of_idle (h : s.busy = false) : moveFirst .core s = hostStep s := if_neg (Bool.eq_false_iff.1 h)

/-- While HOST waits with a held command the step is CORE's. -/
theorem moveFirst_of_held (a : Agent) (hb : s.busy = true) (hready : s.hostReady = false) :
    moveFirst a s = coreStep s := by
  cases a with
  | host => exact moveFirst_host_of_not_ready hready
  | core => exact moveFirst_core_of_busy hb

/-- HOST's presented command runs where it is HOST's turn and the command is not held. -/
theorem moveFirst_host_of_legal (hhost : s.host = x :: rest) (hx : decode x = .legal i)
    (hnot : heldCommand i = false ∨ s.busy = false) : moveFirst .host s = exec i s := by
  rw [moveFirst_host_of_ready (hostReady_of_legal hhost hx hnot), hostStep_of_legal hhost hx]

/-- In IDLE HOST's presented command runs, whosever turn it is: CORE has no step (R154). -/
theorem moveFirst_of_idle (a : Agent) (hb : s.busy = false) (hhost : s.host = x :: rest) (hx : decode x = .legal i) :
    moveFirst a s = exec i s := by
  cases a with
  | host => exact moveFirst_host_of_legal hhost hx (.inr hb)
  | core => rw [moveFirst_core_of_idle hb, hostStep_of_legal hhost hx]

/-- The same registers and the same host interface, with other listed choices and another count of draws. -/
def State.withChoices (s : State) (ts : List Turn) (d : Nat) : State := { s with turns := ts, draws := d }

theorem step_of_turn {a : Agent} {ts : List Turn} (h : s.turns = .of a :: ts) :
    step s = moveFirst a (s.withChoices ts s.draws) := by
  simp only [step, advance, h, State.withChoices]

theorem step_of_rst {ts : List Turn} (h : s.turns = .rst :: ts) :
    step s = .next (s.withChoices ts s.draws).resetCore := by
  simp only [step, advance, h, State.withChoices]

theorem step_of_no_turn (h : s.turns = []) :
    step s = moveFirst (Config.freeAgent s.draws) (s.withChoices s.turns (s.draws + 1)) := by
  simp only [step, advance, h, State.withChoices]

/-- A step that is no reset is a move of some agent, on the state with the choice taken off. -/
theorem exists_step_eq_moveFirst (hrst : ∀ ts, s.turns ≠ .rst :: ts) :
    ∃ a d, step s = moveFirst a (s.withChoices s.turns.tail d) := by
  cases hts : s.turns with
  | nil => exact ⟨_, _, by rw [step_of_no_turn hts, hts, List.tail_nil]⟩
  | cons u ts =>
    cases u with
    | of a => exact ⟨a, s.draws, step_of_turn hts⟩
    | rst => exact absurd hts (hrst ts)

/-- Settles O37: each agent goes first in its own turn, and a move is one of the two in any case. -/
theorem eitherAgentMayBeNext : Obligations.EitherAgentMayBeNext := by
  refine fun s hready hb => ⟨fun ts => ?_, fun ts => ?_, fun hts => ?_⟩
  · exact (step_of_turn rfl).trans (moveFirst_host_of_ready hready)
  · exact (step_of_turn rfl).trans (moveFirst_core_of_busy hb)
  · rw [step_of_no_turn hts]
    exact moveFirst_cases _ _

/-- A word of the opcode table decodes as its transaction. -/
theorem decode_of_decodeTableWord {nbits w : Nat} (h : decodeTableWord nbits w = some i) :
    decode (txnOfTableWord nbits w) = .legal i := by
  unfold decodeTableWord at h
  split at h
  next j hj => rw [hj, Option.some.inj h]
  next => cases h

/-- Settles O51: HOST moves in its own turn, and in IDLE in every turn. -/
theorem stepRunsTheDecodedCommand : Obligations.StepRunsTheDecodedCommand := by
  refine ⟨fun s x rest ts i hhost hx hnot => ⟨fun hts => ?_, fun hts hb => ?_, fun hts hb => ?_⟩,
    fun s nbits w i hw hnot => ?_⟩
  · rw [step_of_turn hts]
    exact moveFirst_host_of_legal (s := s.withChoices ts s.draws) hhost hx hnot
  · rw [step_of_turn hts]
    exact moveFirst_of_idle (s := s.withChoices ts s.draws) .core hb hhost hx
  · rw [step_of_no_turn hts]
    exact moveFirst_of_idle (s := s.withChoices s.turns (s.draws + 1)) _ hb hhost hx
  · rw [step_of_turn (s := s.withFetchWord nbits w) rfl]
    exact moveFirst_host_of_legal (s := { s with host := txnOfTableWord nbits w :: s.host }) rfl
      (decode_of_decodeTableWord hw) hnot

/-! ## Reset -/

/-- Settles O59: such a step is the reset itself, whatever the state. -/
theorem resetHasPriority : Obligations.ResetHasPriority :=
  fun _ _ hts => ⟨_, step_of_rst hts, State.reset_phase, State.reset_done, State.reset_err, State.reset_cause,
    State.reset_status, State.reset_hWritten_getElem, State.reset_mWritten_getElem, rfl, rfl, rfl, rfl⟩

/-! ## What CORE's steps leave alone -/

/-- Settles O26, by the arm of phase IDLE. -/
theorem idleHasNoCoreStep : Obligations.IdleHasNoCoreStep := by
  intro s hp
  simp only [coreStep, hp]

/-- Settles O36: nothing, a round step or a fold step. -/
theorem coreStepsWriteOnly : Obligations.CoreStepsWriteOnly := by
  intro s t h
  obtain ⟨-, rfl⟩ | ⟨-, hr, rfl⟩ | ⟨hp, rfl⟩ := coreStep_cases h
  · exact ⟨rfl, rfl, rfl, rfl, rfl, rfl, rfl, rfl, rfl, fun _ => rfl⟩
  · exact ⟨rfl, rfl, rfl, rfl, rfl, rfl, rfl, rfl, rfl, fun _ => rfl⟩
  · exact ⟨rfl, rfl, rfl, rfl, rfl, rfl, rfl, rfl, rfl, fun hne => absurd hp hne⟩

/-- Settles O56: the core step is the same one, since the exception leaves the phase and every register it reads. -/
theorem illegalCommandCommutesWithCoreStep : Obligations.IllegalCommandCommutesWithCoreStep := by
  intro s t c h
  obtain ⟨hp, rfl⟩ | ⟨hp, hr, rfl⟩ | ⟨hp, rfl⟩ := coreStep_cases h
  · exact idleHasNoCoreStep _ hp
  · exact coreStep_of_round (s := s.raiseIllegalCommand c) hp hr
  · exact coreStep_of_fold (s := s.raiseIllegalCommand c) hp

/-! ## STATUS -/

/-- The fields of the concatenation of R28, for each of its values. -/
theorem statusWord_fields : ∀ (cause : BitVec 2) (err done busy : Bool),
    let word : Word :=
      (0 : BitVec 26) ++ cause ++ (0 : BitVec 1) ++ BitVec.ofBool err ++ BitVec.ofBool done ++ BitVec.ofBool busy
    word.getLsbD 0 = busy ∧ word.getLsbD 1 = done ∧ word.getLsbD 2 = err ∧ word.getLsbD 3 = false ∧
      word.extractLsb' 4 2 = cause ∧ word.extractLsb' 6 26 = 0 := by
  decide

/-- Settles O52: the bits are the fields of the concatenation, and the pins are BUSY and DONE. -/
theorem statusBitsAreTheFields : Obligations.StatusBitsAreTheFields := by
  intro s
  obtain ⟨hbusy, hdone, herr, hzero, hcause, hhigh⟩ := statusWord_fields s.cause s.err s.done s.busy
  rw [← State.busy_eq_decide]
  exact ⟨hbusy, hdone, herr, hzero, hcause, hhigh, hbusy.symm, hdone.symm⟩

/-! ## Written flags -/

/-- What is written in s is written in t (R232). -/
def State.KeepsWritten (s t : State) : Prop :=
  (∀ k : Fin 8, s.hWritten[k] = true → t.hWritten[k] = true) ∧
  (∀ j : Fin 16, s.mWritten[j] = true → t.mWritten[j] = true)

theorem keepsWritten_of_eq (hh : t.hWritten = s.hWritten) (hm : t.mWritten = s.mWritten) : s.KeepsWritten t :=
  ⟨fun _ => hh ▸ id, fun _ => hm ▸ id⟩

theorem set_true_keeps {n : Nat} (v : Vector Bool n) (j k : Fin n) (h : v[k] = true) : (v.set j.val true)[k] = true := by
  rw [Fin.getElem_fin, Vector.getElem_set]
  split
  · rfl
  · exact h

theorem exec_keepsWritten (h : exec i s = .next t) : s.KeepsWritten t := by
  obtain ⟨-, -, rfl⟩ | ⟨-, rfl⟩ | ⟨x, rfl⟩ | ⟨idx, x, k, -, -, -, rfl⟩ | ⟨idx, x, j, -, -, -, rfl⟩ |
    ⟨-, -, -, rfl⟩ | ⟨-, rfl⟩ := exec_cases h
  case inr.inr.inr.inl => exact ⟨fun k' => set_true_keeps s.hWritten k k', fun _ => id⟩
  case inr.inr.inr.inr.inl => exact ⟨fun _ => id, fun j' => set_true_keeps s.mWritten j j'⟩
  all_goals exact keepsWritten_of_eq rfl rfl

theorem hostStep_keepsWritten (h : hostStep s = .next t) : s.KeepsWritten t := by
  obtain ⟨-, rfl⟩ | ⟨x, rest, c, -, -, rfl⟩ | ⟨x, rest, i, -, -, hi⟩ := hostStep_cases h
  · exact keepsWritten_of_eq rfl rfl
  · exact keepsWritten_of_eq rfl rfl
  · exact exec_keepsWritten hi

theorem coreStep_keepsWritten (h : coreStep s = .next t) : s.KeepsWritten t := by
  obtain ⟨-, -, -, hh, hm, -⟩ := coreStepsWriteOnly s t h
  exact keepsWritten_of_eq hh hm

/-- Settles O57: no host step and no core step clears a flag. -/
theorem writtenStaysWritten : Obligations.WrittenStaysWritten := by
  intro s t hrst h
  obtain ⟨ts, hts, -⟩ | ⟨ts, d, hhost⟩ | ⟨ts, d, hcore⟩ := step_cases h
  · exact absurd hts (hrst ts)
  · exact hostStep_keepsWritten (s := s.withChoices ts d) hhost
  · exact coreStep_keepsWritten (s := s.withChoices ts d) hcore

/-! ## A platform -/

/-- A step of CORE number k is a step of what stands at that number, and of nothing else (R56). -/
theorem stepInstance_getElem? (k : Nat) (p : Platform) (n : Nat) :
    (stepInstance k p)[n]? = if k = n then (p[n]?).map (CoreInstance.next k) else p[n]? := by
  split
  next hkn => exact hkn ▸ stepInstance_self k p
  next hne =>
    unfold stepInstance
    split
    · rfl
    · exact List.getElem?_set_ne hne

theorem stepInstance_other {k n : Nat} (hne : k ≠ n) (p : Platform) : (stepInstance k p)[n]? = p[n]? := by
  rw [stepInstance_getElem?, if_neg hne]

theorem stepInstance_comm {i j : Nat} (hne : i ≠ j) (p : Platform) :
    stepInstance j (stepInstance i p) = stepInstance i (stepInstance j p) := by
  refine List.ext_getElem? fun n => ?_
  simp only [stepInstance_getElem?]
  by_cases hi : i = n
  · have hj : j ≠ n := hi ▸ hne.symm
    simp only [hi, hj, if_true, if_false]
  · simp only [hi, if_false]

/-- Settles O60: a step acts on one place of the list, and with a choice listed it draws no free one. -/
theorem instancesAreIndependent : Obligations.InstancesAreIndependent := by
  refine ⟨fun p i j hne => stepInstance_other hne p, fun p i j hne => stepInstance_comm hne p, fun p k s hk hts => ?_⟩
  have hstep : advance (Config.freeInstanceAgent k) s = step s := advance_listed _ _ hts
  rw [stepInstance_self, hk]
  refine ⟨fun t ht => ?_, fun r hr => ?_⟩
  · simp [CoreInstance.next, hstep, ht]
  · simp [CoreInstance.next, hstep, hr]

end Sys2Proof.Machine
end

