-- ==== Sys2Proof/Proofs/Compression.lean ====
section
/-! SUPPORT. A compression from START to the fold, by CORE's steps alone (spec/43_sequencer.md R156, R159;
spec/10_state.md R33), and the statements about it. -/

namespace Sys2Proof.Machine

variable {s t : State} {i : Instr}

/-! ## The rounds over a schedule -/

theorem roundsUpTo_succ (ws : Vector Word 64) (v : Vector Word 8) {n : Nat} (hn : n < 64) :
    roundsUpTo ws v (n + 1) = roundVars n romK[n] ws[n] (roundsUpTo ws v n) :=
  dif_pos hn

theorem foldWords_roundsUpTo (h : Vector Word 8) (m : Vector Word 16) :
    foldWords h (roundsUpTo (expand m) h 64) = compress h m := by
  rw [compress]

/-- Round step i adds W[i] to the words of the schedule that are there (R102, R152). -/
theorem scheduleAt_expand {m : Vector Word 16} {w : Vector Word 64} {i : Nat} (hi : i < 64)
    (hw : ∀ (j : Nat) (hj : j < 64), j < max 16 i → w[j] = (expand m)[j]) {j : Nat} (hj : j < 64)
    (hlt : j < max 16 (i + 1)) : (scheduleAt i w)[j] = (expand m)[j] := by
  by_cases hdone : j < max 16 i
  · rw [scheduleAt_keeps w hj (by omega), hw j hj hdone]
  · obtain rfl : j = i := by omega
    have h : 16 ≤ j ∧ j < 64 := by omega
    rw [scheduleAt_self j w h, expand_high m h]
    exact schedWord_congr j h w (expand m) (hw _ _ (by omega)) (hw _ _ (by omega)) (hw _ _ (by omega))
      (hw _ _ (by omega))

/-! ## A compression under way -/

/-- The phase turns to FOLD exactly when rnd becomes 64 (R152). -/
theorem State.roundStep_rndInRange (s : State) (hr : s.rnd.val < 64) : (s.roundStep hr).rndInRange := by
  by_cases hlast : s.rnd.val = 63
  · exact ⟨fun h => by simp [hlast] at h, fun _ => congrArg (· + 1) hlast⟩
  · exact ⟨fun _ => Nat.lt_of_le_of_ne hr (fun h => hlast (Nat.succ.inj h)), fun h => by simp [hlast] at h⟩

/-- CORE is BUSY with the compression of the present H and M: DONE is 0, and rnd, W and V are as far as the rounds have come
(R51, R107, R129). -/
structure State.Compressing (s : State) : Prop where
  busy : s.busy = true
  not_done : s.done = false
  rnd_in_range : s.rndInRange
  sched : s.scheduleCorrect
  vars : s.varsCorrect

/-- INIT begins a compression (R151), whatever W, V and rnd held. -/
theorem State.init_compressing (s : State) : s.init.Compressing where
  busy := rfl
  not_done := rfl
  rnd_in_range := ⟨fun _ => Nat.zero_lt_succ 63, fun h => by simp at h⟩
  sched := by
    intro j hj
    have hlow : j.val < 16 := by simpa using hj
    rw [State.init_w, State.init_m, loadw_low _ _ _ hlow, expand_low _ hlow]
  vars := rfl

/-- A round step goes on with it (R152). -/
theorem State.Compressing.roundStep (hc : s.Compressing) (hr : s.rnd.val < 64) : (s.roundStep hr).Compressing where
  busy := State.roundStep_busy s hr
  not_done := hc.not_done
  rnd_in_range := State.roundStep_rndInRange s hr
  sched := fun j hj => scheduleAt_expand hr (fun j hj hlt => hc.sched ⟨j, hj⟩ hlt) j.isLt hj
  vars := by
    have hword : (scheduleAt s.rnd.val s.w)[s.rnd.val] = (expand s.m)[s.rnd.val] :=
      scheduleAt_expand hr (fun j hj hlt => hc.sched ⟨j, hj⟩ hlt) hr (by omega)
    have hvars : s.v = roundsUpTo (expand s.m) s.h s.rnd.val := hc.vars
    calc (s.roundStep hr).v
      _ = roundVars s.rnd.val romK[s.rnd.val] (expand s.m)[s.rnd.val] (roundsUpTo (expand s.m) s.h s.rnd.val) := by
          rw [State.roundStep_v, hword, ← hvars]
      _ = roundsUpTo (expand s.m) s.h (s.rnd.val + 1) := (roundsUpTo_succ _ _ hr).symm

/-- Before the fold the schedule is complete. -/
theorem State.Compressing.w_of_fold (hc : s.Compressing) (hp : s.phase = .fold) : s.w = expand s.m :=
  Vector.ext fun j hj => hc.sched ⟨j, hj⟩ (by
    rw [hc.rnd_in_range.2 hp]
    exact lt_max_of_lt_right hj)

/-- Before the fold all 64 rounds are done. -/
theorem State.Compressing.v_of_fold (hc : s.Compressing) (hp : s.phase = .fold) :
    s.v = roundsUpTo (expand s.m) s.h 64 := by
  have hvars : s.v = roundsUpTo (expand s.m) s.h s.rnd.val := hc.vars
  rwa [hc.rnd_in_range.2 hp] at hvars

/-- FOLD_STEP ends it with H = Compress(H, M) (R153, R159). -/
theorem State.Compressing.foldStep_h (hc : s.Compressing) (hp : s.phase = .fold) :
    s.foldStep.h = compress s.h s.m := by
  rw [State.foldStep_h, hc.v_of_fold hp, foldWords_roundsUpTo]

/-! ## CORE's steps in a row -/

/-- One more step of CORE at the end of a row. -/
theorem coreSteps_succ_of_next {n : Nat} {u : State} (h : coreSteps n s = .next u) : coreSteps (n + 1) s = coreStep u := by
  induction n generalizing s with
  | zero =>
    obtain rfl : s = u := Host.Outcome.next.inj h
    simp only [coreSteps]
    cases coreStep s <;> rfl
  | succ n ih =>
    rw [coreSteps] at h ⊢
    split at h
    next v hv => exact ih h
    next => cases h
    next => cases h

/-- s after n round steps of CORE that have left W and V at these values: nothing else but rnd and the phase changes. -/
def State.afterRounds (s : State) (n : Nat) (w : Vector Word 64) (v : Vector Word 8) : State :=
  { s with w := w, v := v, rnd := Fin.ofNat 65 n, phase := if n = 64 then .fold else .round }

theorem State.afterRounds_rnd (s : State) {n : Nat} (hn : n ≤ 64) (w : Vector Word 64) (v : Vector Word 8) :
    (s.afterRounds n w v).rnd.val = n :=
  Nat.mod_eq_of_lt (Nat.lt_succ_of_le hn)

theorem State.afterRounds_phase (s : State) {n : Nat} (hn : n < 64) (w : Vector Word 64) (v : Vector Word 8) :
    (s.afterRounds n w v).phase = .round :=
  if_neg hn.ne

/-- One more round step (R152). -/
theorem State.roundStep_afterRounds (s : State) {n : Nat} (hn : n < 64) (w : Vector Word 64) (v : Vector Word 8)
    (hr : (s.afterRounds n w v).rnd.val < 64) :
    ∃ w' v', (s.afterRounds n w v).roundStep hr = s.afterRounds (n + 1) w' v' := by
  have hval := s.afterRounds_rnd hn.le w v
  generalize ht : (s.afterRounds n w v).roundStep hr = t
  have hrnd : t.rnd = Fin.ofNat 65 (n + 1) := by
    refine ht ▸ Fin.ext ?_
    show (s.afterRounds n w v).rnd.val + 1 = (n + 1) % 65
    omega
  have hphase : t.phase = if n + 1 = 64 then .fold else .round := by
    rw [← ht, State.roundStep_phase, hval]
    simp only [Nat.succ_inj]
  refine ⟨t.w, t.v, ?_⟩
  calc t
    _ = { s with w := t.w, v := t.v, rnd := t.rnd, phase := t.phase } := by rw [← ht]; rfl
    _ = s.afterRounds (n + 1) t.w t.v := by rw [hrnd, hphase]; rfl

/-- From round 0 CORE makes its 64 round steps, whatever the data (R156). A compression goes on with them. -/
theorem State.exists_afterRounds (hp : s.phase = .round) (h0 : s.rnd = 0) {n : Nat} (hn : n ≤ 64) :
    ∃ w v, coreSteps n s = .next (s.afterRounds n w v) ∧ (s.Compressing → (s.afterRounds n w v).Compressing) := by
  induction n with
  | zero =>
    have hs : s.afterRounds 0 s.w s.v = s := by
      show { s with rnd := 0, phase := .round } = s
      rw [← h0, ← hp]
    exact ⟨s.w, s.v, congrArg _ hs.symm, fun hc => hs.symm ▸ hc⟩
  | succ n ih =>
    have hlt : n < 64 := hn
    obtain ⟨w, v, hrun, hcomp⟩ := ih hlt.le
    have hr : (s.afterRounds n w v).rnd.val < 64 := (s.afterRounds_rnd hlt.le w v).symm ▸ hlt
    obtain ⟨w', v', hround⟩ := s.roundStep_afterRounds hlt w v hr
    refine ⟨w', v', ?_, fun hc => hround ▸ (hcomp hc).roundStep hr⟩
    rw [coreSteps_succ_of_next hrun, coreStep_of_round (s.afterRounds_phase hlt w v) hr, hround]

/-- Settles O27: 64 round steps lead to FOLD, and the fold step follows. -/
theorem sixtyFiveCoreSteps : Obligations.SixtyFiveCoreSteps := by
  intro s hp h0
  obtain ⟨w, v, hrun, -⟩ := State.exists_afterRounds hp h0 (le_refl 64)
  refine ⟨fun n hn => ?_, ⟨_, hrun, rfl, rfl, rfl⟩, ⟨(s.afterRounds 64 w v).foldStep, ?_, rfl, rfl⟩⟩
  · obtain ⟨w, v, hrun, -⟩ := State.exists_afterRounds hp h0 hn.le
    exact ⟨_, hrun, s.afterRounds_phase hn w v, s.afterRounds_rnd hn.le w v⟩
  · rw [coreSteps_succ_of_next hrun, coreStep_of_fold rfl]

/-- The state a compression ends in, in full: only H, M and the host interface of the state before it appear. -/
def State.compressed (s : State) : State :=
  { s with
    h := compress s.h s.m
    w := expand s.m
    v := roundsUpTo (expand s.m) s.h 64
    rnd := 64
    phase := .idle
    done := true }

/-- 65 core steps from round 0 of a compression (R159). -/
theorem State.Compressing.coreSteps_eq (hc : s.Compressing) (hp : s.phase = .round) (h0 : s.rnd = 0) :
    coreSteps 65 s = .next s.compressed := by
  obtain ⟨w, v, hrun, hcomp⟩ := State.exists_afterRounds hp h0 (le_refl 64)
  have hw : w = expand s.m := (hcomp hc).w_of_fold rfl
  have hv : v = roundsUpTo (expand s.m) s.h 64 := (hcomp hc).v_of_fold rfl
  have hh : (s.afterRounds 64 w v).foldStep.h = compress s.h s.m := (hcomp hc).foldStep_h rfl
  rw [coreSteps_succ_of_next hrun, coreStep_of_fold rfl, State.compressed, ← hh, ← hv, ← hw]
  rfl

/-- START and CORE's 65 steps (R156, R159). -/
theorem exec_start_coreSteps (hb : s.busy = false) (hw : s.allWritten) :
    exec .start s = .next (s.init.accept 0) ∧ coreSteps 65 (s.init.accept 0) = .next (s.compressed.accept 0) :=
  ⟨exec_start_of_allWritten hb hw, State.Compressing.coreSteps_eq (State.init_compressing (s.accept 0)) rfl rfl⟩

/-- Settles O29: the end of the first compression is IDLE with all inputs written, and M unchanged. -/
theorem secondStartChains : Obligations.SecondStartChains := by
  intro s hb hw
  obtain ⟨hstart, hrun⟩ := exec_start_coreSteps hb hw
  obtain ⟨hstart', hrun'⟩ := exec_start_coreSteps (s := s.compressed.accept 0) rfl hw
  exact ⟨_, _, _, _, hstart, hrun, hstart', hrun', rfl, rfl⟩

/-- Settles O30: the state a compression ends in does not mention the W, V and rnd it began with. -/
theorem scratchBeforeStartIsNeverRead : Obligations.ScratchBeforeStartIsNeverRead := by
  intro s w v rnd hb hw
  obtain ⟨hstart, hrun⟩ := exec_start_coreSteps hb hw
  obtain ⟨hstart', hrun'⟩ := exec_start_coreSteps (s := { s with w := w, v := v, rnd := rnd }) hb hw
  exact ⟨_, _, s.compressed.accept 0, hstart, hstart', hrun, hrun'⟩

end Sys2Proof.Machine
end

