-- ==== Sys2Proof/Proofs/Invariant.lean ====
section
/-! SUPPORT. The invariant at reset and in every step, and where a step can stop (spec/10_state.md section 4,
spec/70_reset_and_hazards.md R232), with the statements about them. -/

namespace Sys2Proof.Machine

variable {s t : State} {i : Instr}

/-! ## The invariant -/

theorem State.inv_of_idle (hb : s.busy = false) (herr : s.err = false → s.cause = 0) : s.Inv := by
  have hp : s.phase = .idle := State.busy_eq_false_iff.1 hb
  refine ⟨herr, ⟨fun h => ?_, fun h => ?_⟩, fun h => ?_, fun h => ?_, fun h => ?_, fun h => ?_⟩
  · rw [hp] at h; cases h
  · rw [hp] at h; cases h
  all_goals rw [hb] at h; cases h

theorem State.Compressing.inv (hc : s.Compressing) (hw : s.allWritten) (herr : s.err = false → s.cause = 0) : s.Inv :=
  ⟨herr, hc.rnd_in_range, fun _ => hw, fun _ => hc.not_done, fun _ => hc.sched, fun _ => hc.vars⟩

theorem State.Inv.compressing (hs : s.Inv) (hb : s.busy = true) : s.Compressing :=
  ⟨hb, hs.not_done hb, hs.rnd_in_range, hs.sched hb, hs.vars hb⟩

/-- The invariant does not read the host interface or the choices, and of ERR and CAUSE only that the first explains the
second. -/
theorem State.Inv.update (hs : s.Inv) {err : Bool} {cause : BitVec 2} (herr : err = false → cause = 0) (host : List Txn)
    (replies : List Word) (turns : List Turn) (draws : Nat) :
    ({ s with err := err, cause := cause, host := host, replies := replies, turns := turns, draws := draws } : State).Inv :=
  ⟨herr, hs.rnd_in_range, hs.written, hs.not_done, hs.sched, hs.vars⟩

theorem State.Inv.accept (hs : s.Inv) (x : Word) : (s.accept x).Inv :=
  hs.update hs.cause_of_no_err s.host.tail (s.replies ++ [x]) s.turns s.draws

theorem State.Inv.withChoices (hs : s.Inv) (ts : List Turn) (d : Nat) : (s.withChoices ts d).Inv :=
  hs.update hs.cause_of_no_err s.host s.replies ts d

theorem State.Inv.raiseIllegalCommand (hs : s.Inv) (c : IllegalCause) : (s.raiseIllegalCommand c).Inv :=
  (hs.update (err := true) (fun h => by cases h) s.host s.replies s.turns s.draws).accept 0

theorem State.Inv.clearErr (hs : s.Inv) : s.clearErr.Inv :=
  hs.update (fun _ => rfl) s.host s.replies s.turns s.draws

/-- Settles O31: reset is IDLE with ERR and CAUSE 0. -/
theorem invariantAtReset : Obligations.InvariantAtReset :=
  State.inv_of_idle State.reset_busy fun _ => State.reset_cause

theorem exec_keeps_inv (hs : s.Inv) (h : exec i s = .next t) : t.Inv := by
  obtain ⟨-, -, rfl⟩ | ⟨-, rfl⟩ | ⟨x, rfl⟩ | ⟨idx, x, k, -, -, hb, rfl⟩ | ⟨idx, x, j, -, -, hb, rfl⟩ |
    ⟨-, -, hw, rfl⟩ | ⟨-, rfl⟩ := exec_cases h
  · exact hs
  · exact hs.raiseIllegalCommand .badIndex
  · exact hs.accept x
  · exact (State.inv_of_idle (s := s.writeH k x) hb hs.cause_of_no_err).accept 0
  · exact (State.inv_of_idle (s := s.writeM j x) hb hs.cause_of_no_err).accept 0
  · exact (s.init_compressing.inv hw hs.cause_of_no_err).accept 0
  · exact hs.clearErr.accept 0

theorem hostStep_keeps_inv (hs : s.Inv) (h : hostStep s = .next t) : t.Inv := by
  obtain ⟨-, rfl⟩ | ⟨x, rest, c, -, -, rfl⟩ | ⟨x, rest, i, -, -, hi⟩ := hostStep_cases h
  · exact hs
  · exact hs.raiseIllegalCommand c
  · exact exec_keeps_inv hs hi

theorem coreStep_keeps_inv (hs : s.Inv) (h : coreStep s = .next t) : t.Inv := by
  obtain ⟨-, rfl⟩ | ⟨hp, hr, rfl⟩ | ⟨-, rfl⟩ := coreStep_cases h
  · exact hs
  · have hb : s.busy = true := State.busy_eq_true_iff.2 (.inl hp)
    exact ((hs.compressing hb).roundStep hr).inv (hs.written hb) hs.cause_of_no_err
  · exact State.inv_of_idle s.foldStep_busy hs.cause_of_no_err

/-- Settles O32: a reset, a host step and a core step each keep it. -/
theorem everyStepKeepsTheInvariant : Obligations.EveryStepKeepsTheInvariant := by
  intro s t hs h
  obtain ⟨ts, -, rfl⟩ | ⟨ts, d, hhost⟩ | ⟨ts, d, hcore⟩ := step_cases h
  · exact State.inv_of_idle (State.resetCore_busy _) fun _ => State.reset_cause
  · exact hostStep_keeps_inv (hs.withChoices ts d) hhost
  · exact coreStep_keeps_inv (hs.withChoices ts d) hcore

/-! ## Faults -/

theorem hostStep_outcome (s : State) : (∃ t, hostStep s = .next t) ∨
    (s.busy = false ∧ ∃ x rest i r, s.host = x :: rest ∧ decode x = .legal i ∧
      hostStep s = .fault (.unwrittenRead r) ∧ s.ReadsUnwritten i r) := by
  cases hhost : s.host with
  | nil => exact .inl ⟨s, by simp only [hostStep, hhost]⟩
  | cons x rest =>
    cases hx : decode x with
    | illegal c => exact .inl ⟨_, hostStep_of_illegal hhost hx⟩
    | legal i =>
      rw [hostStep_of_legal hhost hx]
      obtain hnext | ⟨hb, r, hfault, hr⟩ := exec_outcome i s
      · exact .inl hnext
      · exact .inr ⟨hb, x, rest, i, r, rfl, hx, hfault, hr⟩

/-- Settles O34: a core step of the invariant has a round left, and a host step stops only in its command. -/
theorem onlyUnwrittenReadsFault : Obligations.OnlyUnwrittenReadsFault := by
  intro s hs
  by_cases hrst : ∃ ts, s.turns = .rst :: ts
  · obtain ⟨ts, hts⟩ := hrst
    exact .inl ⟨_, step_of_rst hts⟩
  obtain ⟨a, d, hstep⟩ := exists_step_eq_moveFirst (not_exists.1 hrst)
  rw [hstep]
  obtain hmove | hmove := moveFirst_cases a (s.withChoices s.turns.tail d) <;> rw [hmove]
  · obtain hnext | ⟨hb, x, rest, i, r, hhost, hx, hfault, hr⟩ := hostStep_outcome (s.withChoices s.turns.tail d)
    · exact .inl hnext
    · refine .inr ⟨hb, x, rest, r, hhost, hfault, ?_⟩
      obtain ⟨idx, k, rfl, hk⟩ | ⟨idx, j, rfl, hj⟩ | ⟨rfl, hr⟩ := hr
      · exact .inl ⟨idx, k, hx, hk⟩
      · exact .inr (.inl ⟨idx, j, hx, hj⟩)
      · exact .inr (.inr ⟨hx, hr⟩)
  · exact .inl (exists_coreStep_iff.2 hs.rnd_in_range.1)

end Sys2Proof.Machine
end

