-- ==== Sys2Proof/Proofs/Interleaving.lean ====
section
/-! SUPPORT. A compression with HOST's commands in between, whichever agent moves (spec/20_memory.md R50 to R53,
spec/43_sequencer.md R159), with the statements about it. -/

namespace Sys2Proof.Machine

variable {s t : State} {i : Instr}

/-- While BUSY a command changes ERR, CAUSE and the host interface alone: those that write more are held (R171). -/
theorem exec_of_busy (hb : s.busy = true) (h : exec i s = .next t) :
    ∃ err cause host replies, t = { s with err := err, cause := cause, host := host, replies := replies } := by
  obtain ⟨-, -, rfl⟩ | ⟨-, rfl⟩ | ⟨x, rfl⟩ | ⟨_, _, _, -, -, hidle, -⟩ | ⟨_, _, _, -, -, hidle, -⟩ | ⟨-, hidle, -⟩ |
    ⟨-, rfl⟩ := exec_cases h
  case inr.inr.inr.inl | inr.inr.inr.inr.inl | inr.inr.inr.inr.inr.inl => rw [hb] at hidle; cases hidle
  all_goals exact ⟨_, _, _, _, rfl⟩

theorem hostStep_of_busy (hb : s.busy = true) (h : hostStep s = .next t) :
    ∃ err cause host replies, t = { s with err := err, cause := cause, host := host, replies := replies } := by
  obtain ⟨-, rfl⟩ | ⟨x, rest, c, -, -, rfl⟩ | ⟨x, rest, i, -, -, hi⟩ := hostStep_cases h
  · exact ⟨_, _, _, _, rfl⟩
  · exact ⟨_, _, _, _, rfl⟩
  · exact exec_of_busy hb hi

/-- A compression in s is still under way in t, with the same H and M. -/
structure State.GoesOnIn (s t : State) : Prop where
  compressing : t.Compressing
  h : t.h = s.h
  m : t.m = s.m

/-- A compression in s is finished in t: H is the result, DONE is set, and nothing was accepted on the way (R51, R159). -/
structure State.FinishesIn (s t : State) : Prop where
  busy : t.busy = false
  h : t.h = compress s.h s.m
  m : t.m = s.m
  done : t.done = true
  err : t.err = s.err
  cause : t.cause = s.cause
  host : t.host = s.host
  replies : t.replies = s.replies

theorem State.Compressing.withChoices (hc : s.Compressing) (ts : List Turn) (d : Nat) : (s.withChoices ts d).Compressing :=
  ⟨hc.busy, hc.not_done, hc.rnd_in_range, hc.sched, hc.vars⟩

theorem State.Compressing.of_hostStep (hc : s.Compressing) (h : hostStep s = .next t) :
    s.GoesOnIn t ∧ t.turns = s.turns := by
  obtain ⟨err, cause, host, replies, rfl⟩ := hostStep_of_busy hc.busy h
  exact ⟨⟨⟨hc.busy, hc.not_done, hc.rnd_in_range, hc.sched, hc.vars⟩, rfl, rfl⟩, rfl⟩

theorem State.Compressing.of_coreStep (hc : s.Compressing) (h : coreStep s = .next t) :
    (s.GoesOnIn t ∨ s.FinishesIn t) ∧ t.turns = s.turns := by
  obtain ⟨-, rfl⟩ | ⟨-, hr, rfl⟩ | ⟨hp, rfl⟩ := coreStep_cases h
  · exact ⟨.inl ⟨hc, rfl, rfl⟩, rfl⟩
  · exact ⟨.inl ⟨hc.roundStep hr, rfl, rfl⟩, rfl⟩
  · exact ⟨.inr ⟨rfl, hc.foldStep_h hp, rfl, rfl, rfl, rfl, rfl, rfl⟩, rfl⟩

/-- A step that is no reset, of whichever agent, goes on with a compression or finishes it (R51). -/
theorem State.Compressing.of_step (hc : s.Compressing) (hrst : ∀ ts, s.turns ≠ .rst :: ts) (h : step s = .next t) :
    (s.GoesOnIn t ∨ s.FinishesIn t) ∧ t.turns = s.turns.tail := by
  obtain ⟨a, d, hstep⟩ := exists_step_eq_moveFirst hrst
  rw [hstep] at h
  have hc' := hc.withChoices s.turns.tail d
  obtain hmove | hmove := moveFirst_cases a (s.withChoices s.turns.tail d) <;> rw [hmove] at h
  · obtain ⟨hgoes, hturns⟩ := hc'.of_hostStep h
    exact ⟨.inl ⟨hgoes.compressing, hgoes.h, hgoes.m⟩, hturns⟩
  · obtain ⟨hgoes | hfin, hturns⟩ := hc'.of_coreStep h
    · exact ⟨.inl ⟨hgoes.compressing, hgoes.h, hgoes.m⟩, hturns⟩
    · exact ⟨.inr ⟨hfin.busy, hfin.h, hfin.m, hfin.done, hfin.err, hfin.cause, hfin.host, hfin.replies⟩, hturns⟩

/-- Settles O33: the step goes on with the compression of the present H and M or finishes it. -/
theorem compressionIsAtomicForHost : Obligations.CompressionIsAtomicForHost := by
  intro s t hs hb hrst h
  obtain ⟨hgoes | hfin, -⟩ := (hs.compressing hb).of_step hrst h
  · exact .inl ⟨hgoes.compressing.busy, hgoes.h, hgoes.m, hgoes.compressing.not_done⟩
  · exact .inr ⟨hfin.busy, hfin.h, hfin.m, hfin.done, hfin.host, hfin.replies⟩

theorem not_rst_of_forall_mem (h : ∀ x ∈ s.turns, x ≠ .rst) (ts : List Turn) : s.turns ≠ .rst :: ts :=
  fun hts => h .rst (hts ▸ List.mem_cons_self) rfl

/-- As long as no step of a run clears BUSY, the compression of its first state is under way. -/
theorem State.Compressing.of_run (hc : s.Compressing) (hrst : ∀ x ∈ s.turns, x ≠ .rst) {n : Nat} {u : State}
    (hbusy : ∀ k, k ≤ n → ∃ v, Sys2Proof.core.run k s = .next v ∧ v.busy = true)
    (hu : Sys2Proof.core.run n s = .next u) : s.GoesOnIn u ∧ ∀ x ∈ u.turns, x ≠ .rst := by
  induction n generalizing u with
  | zero =>
    obtain rfl : s = u := Host.Outcome.next.inj hu
    exact ⟨⟨hc, rfl, rfl⟩, hrst⟩
  | succ n ih =>
    obtain ⟨v, hv, -⟩ := hbusy n (Nat.le_succ n)
    obtain ⟨w, hw, hwb⟩ := hbusy (n + 1) le_rfl
    obtain rfl : u = w := Host.Outcome.next.inj (hu.symm.trans hw)
    obtain ⟨hgoes, hvrst⟩ := ih (fun k hk => hbusy k (Nat.le_succ_of_le hk)) hv
    rw [run_succ_of_run n hv] at hu
    obtain ⟨hgoes' | hfin, hturns⟩ := hgoes.compressing.of_step (not_rst_of_forall_mem hvrst) hu
    · refine ⟨⟨hgoes'.compressing, hgoes'.h.trans hgoes.h, hgoes'.m.trans hgoes.m⟩, fun x hx => hvrst x ?_⟩
      exact List.mem_of_mem_tail (hturns ▸ hx)
    · rw [hfin.busy] at hwb; cases hwb

/-- Settles O28: CORE alone by its 65 steps, and any run without reset by what each step does to the compression. -/
theorem compressionEndToEnd : Obligations.CompressionEndToEnd := by
  refine ⟨fun s hb hw => ?_, fun n s s0 u t hb hstart hrst hbusy hu ht htb => ?_⟩
  · obtain ⟨hstart, hrun⟩ := exec_start_coreSteps hb hw
    exact ⟨_, _, hstart, hrun, rfl, rfl, rfl, rfl, rfl, rfl, rfl, rfl, rfl, rfl⟩
  · have hw : s.allWritten := by
      by_contra hw
      obtain ⟨k, -, hf⟩ | ⟨j, -, hf⟩ := startFaultsOnUnwrittenInput s hb hw <;> rw [hf] at hstart <;> cases hstart
    rw [exec_start_of_allWritten hb hw, Host.Outcome.next.injEq] at hstart
    subst hstart
    obtain ⟨hgoes, hurst⟩ := State.Compressing.of_run (State.init_compressing (s.accept 0)) hrst hbusy hu
    obtain ⟨hgoes' | hfin, -⟩ := hgoes.compressing.of_step (not_rst_of_forall_mem hurst) ht
    · rw [hgoes'.compressing.busy] at htb; cases htb
    · refine ⟨?_, hfin.done, hfin.m.trans hgoes.m, hfin.err, hfin.cause⟩
      rw [hfin.h, hgoes.h, hgoes.m]
      rfl

end Sys2Proof.Machine
end

