-- ==== Sys2Proof/Proofs/Hold.lean ====
section
/-! SUPPORT. The hold of R171: HOST waits until the fold, and its command is accepted after it, with the statement about
it. -/

namespace Sys2Proof.Machine

variable {s t : State} {i : Instr}

/-- Where HOST waits with a held command and no reset comes next, the step is CORE's, whosever turn it is. -/
theorem exists_step_eq_coreStep (hb : s.busy = true) (hready : s.hostReady = false) (hrst : ∀ ts, s.turns ≠ .rst :: ts) :
    ∃ d, step s = coreStep (s.withChoices s.turns.tail d) := by
  obtain ⟨a, d, hstep⟩ := exists_step_eq_moveFirst hrst
  exact ⟨d, hstep.trans (moveFirst_of_held (s := s.withChoices s.turns.tail d) a hb hready)⟩

theorem State.hostReady_congr (hb : s.busy = t.busy) (hhost : s.host = t.host) : s.hostReady = t.hostReady := by
  unfold State.hostReady State.holds
  rw [hb, hhost]

/-- t differs from s in the registers of the sequencer, H, DONE and the choices alone. -/
structure State.OnlyCoreMoved (s t : State) : Prop where
  m : t.m = s.m
  err : t.err = s.err
  cause : t.cause = s.cause
  hWritten : t.hWritten = s.hWritten
  mWritten : t.mWritten = s.mWritten
  host : t.host = s.host
  replies : t.replies = s.replies

theorem State.OnlyCoreMoved.trans {u : State} (h : s.OnlyCoreMoved t) (h' : t.OnlyCoreMoved u) : s.OnlyCoreMoved u :=
  ⟨h'.m.trans h.m, h'.err.trans h.err, h'.cause.trans h.cause, h'.hWritten.trans h.hWritten,
    h'.mWritten.trans h.mWritten, h'.host.trans h.host, h'.replies.trans h.replies⟩

theorem State.OnlyCoreMoved.allWritten (h : s.OnlyCoreMoved t) (hw : s.allWritten) : t.allWritten := by
  obtain ⟨hh, hm⟩ := hw
  exact ⟨fun k => h.hWritten.symm ▸ hh k, fun j => h.mWritten.symm ▸ hm j⟩

theorem not_rst_of_take {ts : List Turn} {n : Nat} (h : ∀ x ∈ ts.take (n + 1), x ≠ .rst) (ts' : List Turn) :
    ts ≠ .rst :: ts' := by
  rintro rfl
  exact h .rst List.mem_cons_self rfl

theorem forall_mem_drop_take {p : Turn → Prop} {ts : List Turn} (k n : Nat) (h : ∀ x ∈ ts.take (k + n), p x) :
    ∀ x ∈ (ts.drop k).take n, p x := by
  intro x hx
  refine h x ?_
  rw [List.take_add]
  exact List.mem_append_right _ hx

/-- While HOST waits in phase ROUND and no reset comes next, the step is a round step, and HOST still waits. -/
theorem step_of_held_round (hp : s.phase = .round) (hready : s.hostReady = false) (hr : s.rnd.val < 64)
    (hrst : ∀ ts, s.turns ≠ .rst :: ts) :
    ∃ t, step s = .next t ∧ t.busy = true ∧ t.hostReady = false ∧ t.rndInRange ∧ t.rnd.val = s.rnd.val + 1 ∧
      t.turns = s.turns.tail ∧ s.OnlyCoreMoved t := by
  have hb : s.busy = true := State.busy_eq_true_iff.2 (.inl hp)
  obtain ⟨d, hstep⟩ := exists_step_eq_coreStep hb hready hrst
  have hbusy : ((s.withChoices s.turns.tail d).roundStep hr).busy = true := State.roundStep_busy _ hr
  refine ⟨_, hstep.trans (coreStep_of_round (s := s.withChoices s.turns.tail d) hp hr), hbusy, ?_,
    State.roundStep_rndInRange _ hr, rfl, rfl, ⟨rfl, rfl, rfl, rfl, rfl, rfl, rfl⟩⟩
  rw [← hready]
  exact State.hostReady_congr (hbusy.trans hb.symm) rfl

/-- While HOST waits in phase FOLD and no reset comes next, the step is the fold step. -/
theorem step_of_held_fold (hp : s.phase = .fold) (hready : s.hostReady = false) (hrst : ∀ ts, s.turns ≠ .rst :: ts) :
    ∃ t, step s = .next t ∧ t.busy = false ∧ t.turns = s.turns.tail ∧ s.OnlyCoreMoved t := by
  obtain ⟨d, hstep⟩ := exists_step_eq_coreStep (State.busy_eq_true_iff.2 (.inr hp)) hready hrst
  exact ⟨_, hstep.trans (coreStep_of_fold (s := s.withChoices s.turns.tail d) hp), rfl, rfl,
    ⟨rfl, rfl, rfl, rfl, rfl, rfl, rfl⟩⟩

/-- While HOST waits and no reset comes, CORE makes the rest of its rounds and folds: 65 - rnd steps (R156, R171). -/
theorem run_of_held (k : Nat) (hb : s.busy = true) (hready : s.hostReady = false) (hrange : s.rndInRange)
    (hk : s.rnd.val + k = 64) (hrst : ∀ x ∈ s.turns.take (k + 1), x ≠ .rst) :
    ∃ u, Sys2Proof.core.run (k + 1) s = .next u ∧ u.busy = false ∧ s.OnlyCoreMoved u ∧
      u.turns = s.turns.drop (k + 1) := by
  obtain ⟨hround, hfold⟩ := hrange
  induction k generalizing s with
  | zero =>
    have hp : s.phase = .fold := (State.busy_eq_true_iff.1 hb).resolve_left fun hp => (hround hp).ne (by omega)
    obtain ⟨u, hstep, hub, hturns, hframe⟩ := step_of_held_fold hp hready (not_rst_of_take hrst)
    exact ⟨u, run_succ_of_step 0 hstep, hub, hframe, hturns.trans List.drop_one.symm⟩
  | succ k ih =>
    have hr : s.rnd.val < 64 := by omega
    have hp : s.phase = .round := (State.busy_eq_true_iff.1 hb).resolve_right fun hp => hr.ne (hfold hp)
    obtain ⟨t, hstep, htb, htready, ⟨htround, htfold⟩, htrnd, htturns, hframe⟩ :=
      step_of_held_round hp hready hr (not_rst_of_take hrst)
    have htrst : ∀ x ∈ t.turns.take (k + 1), x ≠ .rst := by
      rw [htturns, ← List.drop_one]
      exact forall_mem_drop_take 1 (k + 1) (by rwa [Nat.add_comm 1 (k + 1)])
    obtain ⟨u, hrun, hub, huframe, huturns⟩ := ih htb htready (by omega) htrst htround htfold
    refine ⟨u, (run_succ_of_step (k + 1) hstep).trans hrun, hub, hframe.trans huframe, ?_⟩
    rw [huturns, htturns, List.drop_tail]

/-- At most 65 steps of waiting (R171). Where the choices listed after them hold no reset either, none comes next. -/
theorem exists_run_of_held {m : Nat} (hb : s.busy = true) (hready : s.hostReady = false) (hrange : s.rndInRange)
    (hrst : ∀ x ∈ s.turns.take (65 + m), x ≠ .rst) :
    ∃ n u, n ≤ 65 ∧ Sys2Proof.core.run n s = .next u ∧ u.busy = false ∧ s.OnlyCoreMoved u ∧
      ∀ x ∈ u.turns.take m, x ≠ .rst := by
  have hk : s.rnd.val + (64 - s.rnd.val) = 64 := by omega
  have hwithin {n : Nat} (hn : n ≤ 65 + m) : ∀ x ∈ s.turns.take n, x ≠ .rst :=
    fun x hx => hrst x (List.take_subset_take_left _ hn hx)
  obtain ⟨u, hrun, hub, hframe, hturns⟩ := run_of_held _ hb hready hrange hk (hwithin (by omega))
  exact ⟨_, u, by omega, hrun, hub, hframe, hturns ▸ forall_mem_drop_take _ m (hwithin (by omega))⟩

theorem heldCommand_iff (i : Instr) : heldCommand i = true ↔
    (∃ idx x, i = .wrH idx x) ∨ (∃ idx x, i = .wrM idx x) ∨ (∃ idx, i = .rdH idx) ∨ (∃ idx, i = .rdM idx) ∨
      i = .start := by
  cases i <;> simp [heldCommand]

/-- In IDLE with all inputs written a presented command is accepted, whosever turn it is (R170). -/
theorem step_accepts {x : Txn} {rest : List Txn} (hb : s.busy = false) (hw : s.allWritten) (hhost : s.host = x :: rest)
    (hx : decode x = .legal i) (hrst : ∀ ts, s.turns ≠ .rst :: ts) :
    ∃ t y, step s = .next t ∧ t.host = rest ∧ t.replies = s.replies ++ [y] := by
  obtain ⟨a, d, hstep⟩ := exists_step_eq_moveFirst hrst
  rw [hstep, moveFirst_of_idle (s := s.withChoices s.turns.tail d) a hb hhost hx]
  obtain ⟨t, ht⟩ | ⟨r, -, hr⟩ := exec_of_idle (s := s.withChoices s.turns.tail d) hb (wf_of_decode hx)
  · obtain ⟨hhost', y, hreplies⟩ := exec_accepts ht (.inr hb)
    exact ⟨t, y, ht, hhost'.trans (congrArg List.tail hhost), hreplies⟩
  · exact absurd hr (State.not_readsUnwritten hw)

/-- Settles O50: while HOST waits every step is CORE's, and after the fold every turn runs the presented command. -/
theorem heldUntilTheFold : Obligations.HeldUntilTheFold := by
  refine ⟨heldCommand_iff, fun i s hwf hheld hb => exec_of_held hheld hwf hb,
    fun s x rest hhost => State.hostReady_eq_false_iff hhost, fun s x rest i hhost hx hheld hb hrange hrst => ?_,
    fun s x rest i hhost hx hheld hb hs hrst => ?_⟩
  · have hready : s.hostReady = false := (State.hostReady_eq_false_iff hhost).2 ⟨hb, i, hx, hheld⟩
    obtain ⟨n, u, hn, hrun, hub, hframe, -⟩ := exists_run_of_held (m := 0) hb hready hrange hrst
    exact ⟨hready, n, u, hn, hrun, hub, hostReady_of_legal (hframe.host.trans hhost) hx (.inr hub), hframe.host,
      hframe.replies, hframe.m, hframe.err, hframe.cause⟩
  · have hready : s.hostReady = false := (State.hostReady_eq_false_iff hhost).2 ⟨hb, i, hx, hheld⟩
    obtain ⟨n, u, hn, hrun, hub, hframe, hurst⟩ := exists_run_of_held (m := 1) hb hready hs.rnd_in_range hrst
    obtain ⟨v, y, hv, hvhost, hvreplies⟩ :=
      step_accepts hub (hframe.allWritten (hs.written hb)) (hframe.host.trans hhost) hx (not_rst_of_take (n := 0) hurst)
    exact ⟨n, u, v, y, hn, hrun, hub, hframe.host, hframe.replies, hv, hvhost, hframe.replies ▸ hvreplies⟩

end Sys2Proof.Machine
end
